-- ==== Sys2Proof/Word.lean ====
section
/-!
DEFINITION. The words, enumerations and records of the LF2 codec CORE: what the ports carry and what the
registers hold. Types only; every function over them stands in a file a repair may mend.
-/

namespace Sys2Proof

/-- A byte, 0..255, unsigned; bit 7 is the most significant (R5). -/
abbrev Byte := BitVec 8

/-- The operation selector `OP` (R11): 0 = `ENC`, 1 = `DEC`. It is also the kind of a reported error (R131). -/
inductive Op where
  | enc
  | dec
deriving DecidableEq, Repr, Inhabited

/-- The control state `PHASE`, exactly five values (R12); the codes 5, 6, 7 cannot be written down (93 U5). -/
inductive Phase where
  /-- no transaction has been started since reset -/
  | idle
  /-- a decode transaction is discarding header bytes -/
  | skip
  /-- a transaction is transforming content bytes -/
  | body
  /-- the last transaction ended at the end of its input; its result is the output buffer -/
  | doneOk
  /-- the last transaction ended with a read failure; it has no output buffer -/
  | doneErr
deriving DecidableEq, Repr, Inhabited

/-- Format `CMD`, the command word, 1 bit (R51). -/
abbrev CmdWord := BitVec 1

/-- Format `TOK`, the token word, 10 bits: `kind[9:8]`, `payload[7:0]` (R52). -/
abbrev TokWord := BitVec 10

/-- The four values of a token's `kind` field (R52). -/
inductive TokKind where
  | data
  | endOfInput
  | err
  | reserved
deriving DecidableEq, Repr

/-- One transfer offered at one port of the CORE (R20 to R23, R150). -/
inductive Offer where
  /-- the host offers a command word on `CMD` -/
  | cmd (w : CmdWord)
  /-- the source agent offers a token word on `IN` -/
  | tok (w : TokWord)
  /-- the host asks to observe the result on `RES` -/
  | result
  /-- the reset event, which carries no word -/
  | reset
deriving DecidableEq, Repr

/-- Format `RES`, the result record (R54). `cause` has no value when `ok` is true. -/
structure ResRecord where
  ok    : Bool
  kind  : Op
  cause : Option Byte
  len   : Nat
  data  : List Byte
deriving DecidableEq, Repr

end Sys2Proof
end

