-- ==== Sys2Proof/Syntax.lean ====
section
/-!
DEFINITION. The operations of the CORE, one constructor per row of spec/opcode_table.json (R59). An operand is a field
the row's word carries; the payload an operation ignores is kept, so that no bit of a word is lost in decoding.
-/

namespace Sys2Proof

/-- The twelve operations of R59, the reserved token (R56) and the reset event (R150). -/
inductive Instr where
  /-- `ENC`: start an encode transaction (R82) -/
  | enc
  /-- `DEC`: start a decode transaction (R83) -/
  | dec
  /-- `ENC.DATA`: encode the content byte `b` (R91) -/
  | encData (b : Byte)
  /-- `ENC.END`: the input is exhausted; the payload is ignored (R92, R57) -/
  | encEnd (payload : Byte)
  /-- `ENC.ERR`: the source agent reports a read failure with cause `c` (R93) -/
  | encErr (c : Byte)
  /-- `DEC.SKIP.DATA`: discard one header byte; the payload is ignored (R101, R57) -/
  | decSkipData (payload : Byte)
  /-- `DEC.SKIP.END`: the input ends before 123 bytes were skipped (R102, R57) -/
  | decSkipEnd (payload : Byte)
  /-- `DEC.SKIP.ERR`: read failure with cause `c` in the skip stage (R103) -/
  | decSkipErr (c : Byte)
  /-- `DEC.DATA`: decode the content byte `b` (R104) -/
  | decData (b : Byte)
  /-- `DEC.END`: the input is exhausted after the header; the payload is ignored (R105, R57) -/
  | decEnd (payload : Byte)
  /-- `DEC.ERR`: read failure with cause `c` after the header (R106) -/
  | decErr (c : Byte)
  /-- `TOK.RESERVED`: a token word of kind 11, never accepted (R56) -/
  | tokReserved (payload : Byte)
  /-- `RESULT`: observe the result of the last transaction (R86) -/
  | result
  /-- `RESET`: the reset event (R150) -/
  | reset
deriving DecidableEq, Repr

end Sys2Proof
end

