-- ==== Sys2Proof/WellFormed.lean ====
section
/-!
DEFINITION. Which instructions are well formed. Every operand has exactly the width of its field, so the one check is
that the reserved token kind is invalid (R56).
-/

namespace Sys2Proof

/-- False exactly for the reserved token kind, which "A model's decoder reports ... as invalid" (R56). -/
def Instr.wellFormed : Instr → Bool
  | .tokReserved _ => false
  | .enc | .dec | .encData _ | .encEnd _ | .encErr _ | .decSkipData _ | .decSkipEnd _ | .decSkipErr _
  | .decData _ | .decEnd _ | .decErr _ | .result | .reset => true

end Sys2Proof
end

