-- ==== Sys2Proof/Decode.lean ====
section
/-!
DEFINITION. Decoding the words of the two input ports (R51 to R53), and the encoder written from the same tables.
The CORE decodes a token word in the mode it is in, the pair (`OP`, `PHASE`): the same word is another operation in
another mode (R53), so the decoder takes the mode.
-/

namespace Sys2Proof

/-- Why an offered word stands for no operation. -/
inductive DecodeError where
  /-- a token word while the CORE is not busy: it is not accepted (R22) -/
  | tokenWhileNotBusy
  /-- a token word with `OP` = `ENC` and `PHASE` = `SKIP`, a mode the map of R53 calls unreachable -/
  | unreachableMode
deriving DecidableEq, Repr

/-- The field `kind`, bits 9 to 8 of a token word (R52). -/
def tokKind (w : TokWord) : TokKind :=
  if w.extractLsb' 8 2 = 0#2 then .data
  else if w.extractLsb' 8 2 = 1#2 then .endOfInput
  else if w.extractLsb' 8 2 = 2#2 then .err
  else .reserved

/-- The field `payload`, bits 7 to 0 of a token word (R52). -/
def tokPayload (w : TokWord) : Byte := w.extractLsb' 0 8

/-- The command a command word stands for: 0 is `ENC`, 1 is `DEC`; there is no reserved command (R51). -/
def decodeCmd (w : CmdWord) : Instr :=
  if w = 0#1 then .enc else .dec

/-- One column of the map of R53: the operation of a token kind in each mode. -/
def byMode (op : Op) (phase : Phase) (inEnc inSkip inDec : Instr) : Except DecodeError Instr :=
  match phase, op with
  | .body, .enc => .ok inEnc
  | .skip, .dec => .ok inSkip
  | .body, .dec => .ok inDec
  | .skip, .enc => .error .unreachableMode
  | .idle, _ | .doneOk, _ | .doneErr, _ => .error .tokenWhileNotBusy

/-- The operation a token word stands for in the mode (`op`, `phase`) (R53). A word of the reserved kind decodes to
the reserved operation in every mode: it is ill formed and the machine refuses it (R56). -/
def decodeTok (op : Op) (phase : Phase) (w : TokWord) : Except DecodeError Instr :=
  match tokKind w with
  | .data => byMode op phase (.encData (tokPayload w)) (.decSkipData (tokPayload w)) (.decData (tokPayload w))
  | .endOfInput => byMode op phase (.encEnd (tokPayload w)) (.decSkipEnd (tokPayload w)) (.decEnd (tokPayload w))
  | .err => byMode op phase (.encErr (tokPayload w)) (.decSkipErr (tokPayload w)) (.decErr (tokPayload w))
  | .reserved => .ok (.tokReserved (tokPayload w))

/-- The operation an offered transfer stands for in the mode (`op`, `phase`) (R53, R80). -/
def decode (op : Op) (phase : Phase) : Offer → Except DecodeError Instr
  | .cmd w => .ok (decodeCmd w)
  | .tok w => decodeTok op phase w
  | .result => .ok .result
  | .reset => .ok .reset

/-- The two bits of a token kind (R52). -/
def tokKindCode : TokKind → BitVec 2
  | .data => 0
  | .endOfInput => 1
  | .err => 2
  | .reserved => 3

/-- The token word of a kind and a payload (R52). -/
def tokWord (k : TokKind) (payload : Byte) : TokWord := tokKindCode k ++ payload

/-- The one bit of an operation selector (R11). -/
def opCode : Op → BitVec 1
  | .enc => 0
  | .dec => 1

/-- The transfer that carries an instruction (R51, R52, R59). -/
def encode : Instr → Offer
  | .enc => .cmd (opCode .enc)
  | .dec => .cmd (opCode .dec)
  | .encData b => .tok (tokWord .data b)
  | .encEnd p => .tok (tokWord .endOfInput p)
  | .encErr c => .tok (tokWord .err c)
  | .decSkipData p => .tok (tokWord .data p)
  | .decSkipEnd p => .tok (tokWord .endOfInput p)
  | .decSkipErr c => .tok (tokWord .err c)
  | .decData b => .tok (tokWord .data b)
  | .decEnd p => .tok (tokWord .endOfInput p)
  | .decErr c => .tok (tokWord .err c)
  | .tokReserved p => .tok (tokWord .reserved p)
  | .result => .result
  | .reset => .reset

/-- The one mode in which a token operation is what its word stands for (R53, R59); `none` for an operation whose
transfer decodes alike in every mode. -/
def tokenMode : Instr → Option (Op × Phase)
  | .encData _ | .encEnd _ | .encErr _ => some (.enc, .body)
  | .decSkipData _ | .decSkipEnd _ | .decSkipErr _ => some (.dec, .skip)
  | .decData _ | .decEnd _ | .decErr _ => some (.dec, .body)
  | .enc | .dec | .tokReserved _ | .result | .reset => none

/-- The transfer of a word of spec/opcode_table.json, its length given in bits or in whole bytes: 1 or 8 for a row of
format `CMD`, 10 or 16 for a row of format `TOK` (R58: the port tells a word's length). A number with a bit above the
format's width is no word of it (log entry 14). -/
def tableOffer (nbits w : Nat) : Option Offer :=
  if nbits = 1 ∨ nbits = 8 then
    if w < 2 then some (.cmd (BitVec.ofNat 1 w)) else none
  else if nbits = 10 ∨ nbits = 16 then
    if w < 1024 then some (.tok (BitVec.ofNat 10 w)) else none
  else none

/-- What the decoder reads from a word of the opcode table. A token word is read in the mode an `ENC` command leaves,
since the table's word carries no mode (log entry 14). -/
def decodeTableWord (nbits w : Nat) : Option Instr :=
  match tableOffer nbits w with
  | none => none
  | some o =>
    match decode .enc .body o with
    | .ok i => some i
    | .error _ => none

end Sys2Proof
end

