-- ==== Sys2Proof/Machine/Flags.lean ====
section
/-!
DEFINITION. Status conditions. The CORE has no flags, carry or borrow (R18): the only status is `PHASE`, and these
are the conditions the rules read from it.
-/

namespace Sys2Proof

/-- Busy: `PHASE` is `SKIP` or `BODY` (00_scope glossary, R21, R22). -/
def Phase.busy : Phase → Bool
  | .skip | .body => true
  | .idle | .doneOk | .doneErr => false

/-- A transaction has ended and its result exists: `PHASE` is `DONE_OK` or `DONE_ERR` (R23, R85). -/
def Phase.done : Phase → Bool
  | .doneOk | .doneErr => true
  | .idle | .skip | .body => false

/-- The 3-bit code of `PHASE` (R12); no agent can read it. -/
def phaseCode : Phase → BitVec 3
  | .idle => 0
  | .skip => 1
  | .body => 2
  | .doneOk => 3
  | .doneErr => 4

/-- Whether the port of an offer can transfer in a phase: `CMD` when not busy (R21), `IN` when busy (R22), `RES` when
a result exists (R23), `RESET` always (R150). -/
def portOpen (phase : Phase) : Offer → Bool
  | .cmd _ => !phase.busy
  | .tok _ => phase.busy
  | .result => phase.done
  | .reset => true

end Sys2Proof
end

