-- ==== Sys2Proof/Config.lean ====
section
/-!
DEFINITION. The free values: what the spec leaves without a value. Each is an opaque constant, so no proof can see
which value it is, and a statement about one holds for every value.
-/

namespace Sys2Proof.Config

/-- What the key ROM answers at an index above 36, where R31 says it has no defined value (log entry 4). -/
opaque keyBeyond : BitVec 6 → Byte

/-- `NEXTK` of an index above 36, where R73 says the function is not defined (log entry 5). -/
opaque nextkBeyond : BitVec 6 → BitVec 6

/-- `HNEXT` of a count above 122, where R74 does not use the function (log entry 6). -/
opaque hnextBeyond : BitVec 7 → BitVec 7

/-- `OP` after the reset event number `n` (R150: unspecified; log entries 2 and 3). -/
opaque resetOp (n : Nat) : Op

/-- `HCNT` after the reset event number `n` (R150: unspecified; log entries 2 and 3). -/
opaque resetHcnt (n : Nat) : BitVec 7

/-- `KIDX` after the reset event number `n` (R150: unspecified; log entries 2 and 3). -/
opaque resetKidx (n : Nat) : BitVec 6

/-- `OLEN` after the reset event number `n` (R150: unspecified; log entries 2 and 3). -/
opaque resetOlen (n : Nat) : Nat

/-- `ERRCAUSE` after the reset event number `n` (R150: unspecified; log entries 2 and 3). -/
opaque resetErrcause (n : Nat) : Byte

end Sys2Proof.Config
end

