-- ==== Sys2Proof/Machine/Operands.lean ====
section
/-!
DEFINITION. The datapath functions of 40_datapath_primitives.md, which the operations compute with. Each computes on
natural numbers and narrows at the end; none has state, fails or sets a flag (R18, R75).
-/

namespace Sys2Proof.Machine

/-- `ADD8(a, b) = (a + b) mod 256`; the carry out is discarded (R70). -/
def add8 (a b : Byte) : Byte := BitVec.ofNat 8 ((a.toNat + b.toNat) % 256)

/-- `SUB8(a, b)`: `a - b`, or `a - b + 256` when `a < b`; the borrow out is discarded (R71). -/
def sub8 (a b : Byte) : Byte :=
  if b.toNat ≤ a.toNat then BitVec.ofNat 8 (a.toNat - b.toNat)
  else BitVec.ofNat 8 (a.toNat + 256 - b.toNat)

/-- `NEXTK(k)`: 0 if `k` is 36, else `k + 1`; not defined above 36 (R73; log entry 5). -/
def nextk (k : BitVec 6) : BitVec 6 :=
  if k.toNat = 36 then 0
  else if k.toNat < 36 then BitVec.ofNat 6 (k.toNat + 1)
  else Config.nextkBeyond k

/-- `HNEXT(h) = h + 1`, used only on 0..122 (R74; log entry 6). -/
def hnext (h : BitVec 7) : BitVec 7 :=
  if h.toNat ≤ 122 then BitVec.ofNat 7 (h.toNat + 1)
  else Config.hnextBeyond h

end Sys2Proof.Machine
end

