-- ==== Sys2Proof/Machine/Rom.lean ====
section
/-!
DEFINITION. The two constant ROMs (R31, R32) and the read of a key byte. They never change and no operation writes
them (R44); they are no state (R10).
-/

namespace Sys2Proof.Machine

/-- The header length, one constant for encoder and decoder (R3, R32). -/
def headerLen : Nat := 123

/-- The key length: the length of the literal (R3; 90_conflicts.md C1 settles 37 against the count 38). -/
def keyLen : Nat := 37

/-- The `KEY` ROM, index 0 first (R31). -/
def keyRom : List Byte :=
  [0x6F, 0x64, 0x42, 0x65, 0x61, 0x72, 0x42, 0x65, 0x63, 0x61, 0x75, 0x73, 0x65]
  ++ [0x48, 0x65, 0x49, 0x73, 0x56, 0x65, 0x72, 0x79, 0x47, 0x6F, 0x6F, 0x64, 0x53]
  ++ [0x69, 0x75, 0x48, 0x75, 0x6E, 0x67, 0x49, 0x73, 0x41, 0x47, 0x6F]

/-- The `HEADER` ROM, index 0 first (R32). -/
def headerRom : List Byte :=
  [0x54, 0x68, 0x69, 0x73, 0x20, 0x69, 0x73, 0x20, 0x73, 0x61, 0x6D, 0x70, 0x6C, 0x65, 0x20, 0x64]
  ++ [0x61, 0x74, 0x61, 0x20, 0x61, 0x73, 0x20, 0x62, 0x79, 0x74, 0x65, 0x73, 0x2E, 0x20, 0x54, 0x68]
  ++ [0x65, 0x20, 0x66, 0x69, 0x72, 0x73, 0x74, 0x20, 0x31, 0x32, 0x33, 0x20, 0x62, 0x79, 0x74, 0x65]
  ++ [0x73, 0x20, 0x61, 0x72, 0x65, 0x20, 0x69, 0x67, 0x6E, 0x6F, 0x72, 0x65, 0x64, 0x20, 0x64, 0x75]
  ++ [0x72, 0x69, 0x6E, 0x67, 0x20, 0x64, 0x65, 0x63, 0x6F, 0x64, 0x69, 0x6E, 0x67, 0x2C, 0x20, 0x74]
  ++ [0x68, 0x65, 0x20, 0x72, 0x65, 0x73, 0x74, 0x20, 0x61, 0x72, 0x65, 0x20, 0x64, 0x65, 0x63, 0x6F]
  ++ [0x64, 0x65, 0x64, 0x20, 0x75, 0x73, 0x69, 0x6E, 0x67, 0x20, 0x61, 0x20, 0x63, 0x61, 0x65, 0x73]
  ++ [0x61, 0x72, 0x20, 0x63, 0x69, 0x70, 0x68, 0x65, 0x72, 0x2E, 0x20]

/-- `KEY[k]`, the second operand of the adder and the subtractor (R55). Above index 36 the ROM has no defined value
(R31), and the read answers a free value (log entry 4). -/
def keyAt (k : BitVec 6) : Byte :=
  match keyRom[k.toNat]? with
  | some b => b
  | none => Config.keyBeyond k

end Sys2Proof.Machine
end

