-- ==== Sys2Proof/Machine/State.lean ====
section
/-!
DEFINITION. The state of one CORE instance (R10) with the transfers its agents offer, its value after reset, and the
reasons a step can stop.
-/

namespace Sys2Proof.Machine

/-- A byte memory: (index, byte) pairs, indices strictly rising. An index that is not listed has no value (R16). -/
abbrev Memory := List Host.Cell

/-- The whole state. The first seven fields are the state R10 gives one CORE instance; `offers` and `resPort` are
what stands at its ports; `draws` is the model's own. -/
structure State where
  /-- `OP`, the operation of the current transaction (R11) -/
  op : Op
  /-- `PHASE`, the control state (R12) -/
  phase : Phase
  /-- `HCNT`, header bytes handled so far in the current transaction (R13) -/
  hcnt : BitVec 7
  /-- `KIDX`, index of the key byte the next content byte meets (R14) -/
  kidx : BitVec 6
  /-- `OLEN`, number of bytes in the output buffer; unbounded (R15) -/
  olen : Nat
  /-- `ERRCAUSE`, cause of the read failure that ended the last transaction (R17) -/
  errcause : Byte
  /-- `OBUF`, the output buffer (R16, R33) -/
  obuf : Memory
  /-- the transfers offered at the ports and not yet made, oldest first (R20 to R23; log entry 7) -/
  offers : List Offer
  /-- the record the host last took from port `RES` (R54, R86; log entry 11) -/
  resPort : Option ResRecord
  /-- how many reset events have happened: it makes the values each leaves unspecified fresh (log entries 3, 18) -/
  draws : Nat
deriving DecidableEq, Repr

/-- Right after reset (R26): `PHASE` is `IDLE`, no `OBUF` element has a value, nothing is offered. The spec leaves the
other registers unspecified; the values here are the model's (log entry 1). -/
def State.reset : State where
  op := .enc
  phase := .idle
  hcnt := 0
  kidx := 0
  olen := 0
  errcause := 0
  obuf := []
  offers := []
  resPort := none
  draws := 0

/-- Why a step stops although no instruction is refused. -/
inductive Fault where
  /-- Raised by `step` when nothing offered can be transferred in the present phase: the CORE has no step of its
  own and stays as it is (R20, R139; 93 U6, U9 "stuck"). Safe: the machine has no step there either. -/
  | noTransfer
  /-- Raised by `RESULT` when an element of OBUF below OLEN has no value; no reachable state has one
  (R16, R19; 93 U1 allows a fault). Safe: the model stops. -/
  | unwrittenByte
deriving DecidableEq, Repr

/-- Why an offered transfer is not made. -/
inductive Refusal where
  /-- Raised by `exec` for an instruction that has no meaning yet. Safe: the model stops. -/
  | notModelled (mnemonic : String)
  /-- Raised by `ENC` and `DEC` in `SKIP` and `BODY`: "not accepted" (R21, R80). Safe: the machine has no step. -/
  | commandWhileBusy
  /-- Raised by a token in `IDLE`, `DONE_OK` and `DONE_ERR`: "not accepted" (R22, R80). Safe: no step. -/
  | tokenWhileNotBusy
  /-- Raised by a token operation in a busy mode whose map of R53 gives the word another operation, and by a token
  word in the unreachable mode of R53. Safe: no run gets there. -/
  | wrongMode
  /-- Raised by a token word of kind 11, in every state: "not accepted" (R56, 93 U2 "refuse"). Safe: no step. -/
  | reservedTokenKind
  /-- Raised by `RESULT` in `IDLE`, `SKIP` and `BODY`: the observation has no value (R23, R86, 93 U8 "refuse").
  Safe: the partial buffer is never shown. -/
  | noResult
deriving DecidableEq, Repr

end Sys2Proof.Machine
end

