-- ==== Sys2Proof/Machine/Ops.lean ====
section
/-!
DEFINITION. The named operations over the output buffer, the registers and the ports: one home for every read and
write the operations make, the error entry, and the choice of the next transfer.
-/

namespace Sys2Proof.Machine

/-- The byte at an index; none where no value is held (R16). -/
def Memory.read : Memory → Nat → Option Byte
  | [], _ => none
  | (k, v) :: m, a => if k = a then some v else Memory.read m a

/-- Write one byte, keeping the indices strictly rising. -/
def Memory.write : Memory → Nat → Byte → Memory
  | [], a, v => [(a, v)]
  | (k, w) :: m, a, v =>
    if a < k then (a, v) :: (k, w) :: m
    else if a = k then (k, v) :: m
    else (k, w) :: Memory.write m a v

/-- The memory that holds the bytes from index `a` on and nothing else. -/
def Memory.ofBytes : Nat → List Byte → Memory
  | _, [] => []
  | a, b :: bs => (a, b) :: Memory.ofBytes (a + 1) bs

/-- The `n` bytes from index `a` on, if each has a value. -/
def Memory.readRange : Memory → Nat → Nat → Option (List Byte)
  | _, _, 0 => some []
  | m, a, n + 1 =>
    match Memory.read m a, Memory.readRange m (a + 1) n with
    | some b, some bs => some (b :: bs)
    | _, _ => none

/-- Every index is at least `lo` and they rise strictly. -/
def Memory.risesFrom : Nat → Memory → Bool
  | _, [] => true
  | lo, (k, _) :: m => decide (lo ≤ k) && Memory.risesFrom (k + 1) m

/-- The one form a memory is held in: indices strictly rising. An unlisted index has no value, so no entry can equal
what an unlisted index reads as. -/
def Memory.wf (m : Memory) : Bool := Memory.risesFrom 0 m

/-- `Append(v)`: `OBUF[OLEN] <- v; OLEN <- OLEN + 1` (00_scope.md, R33). -/
def appendByte (s : State) (v : Byte) : State :=
  { s with obuf := Memory.write s.obuf s.olen v, olen := s.olen + 1 }

/-- `OLEN <- 0`: every element now lies at or beyond `OLEN` and holds no value (R16; log entry 12). -/
def emptyBuffer (s : State) : State := { s with obuf := [], olen := 0 }

/-- `OLEN <- 123` and `OBUF[a] <- HEADER[a]` for `a` in 0..122; what lay from index 123 upward has no value any more
(R82; log entry 12). -/
def loadHeader (s : State) : State :=
  { s with obuf := Memory.ofBytes 0 headerRom, olen := headerLen }

/-- One content byte: append it and step the key index (R91, R104). -/
def emitContent (s : State) (v : Byte) : State :=
  let t := appendByte s v
  { t with kidx := nextk s.kidx }

/-- The state an accepted `ENC` leaves (R82). `ERRCAUSE` is not written. -/
def startEncode (s : State) : State :=
  { loadHeader s with op := .enc, hcnt := BitVec.ofNat 7 headerLen, kidx := 0, phase := .body }

/-- The state an accepted `DEC` leaves (R83). `ERRCAUSE` is not written. -/
def startDecode (s : State) : State :=
  { emptyBuffer s with op := .dec, hcnt := 0, kidx := 0, phase := .skip }

/-- The state an accepted `DEC.SKIP.DATA` leaves (R101). -/
def skipHeaderByte (s : State) : State :=
  if s.hcnt = 122 then { s with hcnt := BitVec.ofNat 7 headerLen, phase := .body }
  else { s with hcnt := hnext s.hcnt }

/-- `PHASE <- DONE_OK`, everything else unchanged: the input is exhausted (R92, R102, R105). -/
def endOfInput (s : State) : State := { s with phase := .doneOk }

/-- TAKING THE ONE EXCEPTION: `raise ReadError(c)`, the error entry sequence (R133): `ERRCAUSE <- c`, `OLEN <- 0`,
`PHASE <- DONE_ERR`; `OP`, `HCNT`, `KIDX` unchanged. There is no handler and no return from it (R134): only a new
command or reset leaves `DONE_ERR`. -/
def raiseReadError (c : Byte) (s : State) : State :=
  { emptyBuffer s with errcause := c, phase := .doneErr }

/-- The reset event (R150): `PHASE <- IDLE`, every other register unspecified, so a free value, fresh at each event
(log entries 2 and 3); no `OBUF` element has a value (R26). What the agents offer and have observed is theirs.
DESIGN CHOICE: the free values depend on `draws` alone, so the resets of the same number of two instances leave equal
values, which no rule says (R26, R140; log entry 18). -/
def resetEvent (s : State) : State :=
  { s with
    phase := .idle
    op := Config.resetOp s.draws
    hcnt := Config.resetHcnt s.draws
    kidx := Config.resetKidx s.draws
    olen := Config.resetOlen s.draws
    errcause := Config.resetErrcause s.draws
    obuf := []
    draws := s.draws + 1 }

/-- A command is accepted only when the CORE is not busy (R21, R80). -/
def acceptCommand (s t : State) : Host.Outcome State Fault Refusal :=
  if s.phase.busy then .refused .commandWhileBusy else .next t

/-- A token operation is accepted only when the CORE is busy (R22) and in the operation's mode (R53, R80). -/
def acceptToken (op : Op) (phase : Phase) (s t : State) : Host.Outcome State Fault Refusal :=
  if s.phase.busy = false then .refused .tokenWhileNotBusy
  else if s.op = op ∧ s.phase = phase then .next t
  else .refused .wrongMode

/-- The record of a successful transaction (R54, `DONE_OK`). -/
def okRecord (s : State) (data : List Byte) : ResRecord :=
  { ok := true, kind := s.op, cause := none, len := s.olen, data := data }

/-- The record of a failed transaction (R54, `DONE_ERR`): no buffer. -/
def errRecord (s : State) : ResRecord :=
  { ok := false, kind := s.op, cause := some s.errcause, len := 0, data := [] }

/-- Carry a record to the host on port `RES`. -/
def showResult (s : State) (r : ResRecord) : State := { s with resPort := some r }

/-- The refusal of a word that stands for no operation. -/
def decodeRefusal : DecodeError → Refusal
  | .tokenWhileNotBusy => .tokenWhileNotBusy
  | .unreachableMode => .wrongMode

/-- The oldest offer whose port can transfer in this phase, and the offers left pending. Offers at one port are never
reordered, since all of them wait or transfer alike (R21, R22, R34; log entry 7). -/
def takeOpen (phase : Phase) : List Offer → Option (Offer × List Offer)
  | [] => none
  | o :: os =>
    if portOpen phase o then some (o, os)
    else
      match takeOpen phase os with
      | none => none
      | some (x, rest) => some (x, o :: rest)

/-- The next transfer and the offers left pending: a pending reset overrides everything else that is offered, whatever
stands before it (R136, R150); without one it is the oldest offer at an open port. -/
def nextTransfer (phase : Phase) (os : List Offer) : Option (Offer × List Offer) :=
  if Offer.reset ∈ os then some (.reset, os.erase .reset) else takeOpen phase os

/-- Make the port of an offer able to transfer: abandon a busy transaction for a command, start an encode transaction
for a token (log entry 14). A state whose port is open already is left alone. -/
def openPort (s : State) (o : Offer) : State :=
  if portOpen s.phase o then s
  else
    match o with
    | .cmd _ => { s with phase := .idle }
    | .tok _ => startEncode s
    | .result | .reset => s

end Sys2Proof.Machine
end

