-- ==== Sys2Proof/Machine/Commands.lean ====
section
/-!
DEFINITION. The meanings of the two commands, the result observation, the reset event and the reserved token
(41_commands.md, 70_reset_and_hazards.md, R56).
-/

namespace Sys2Proof.Machine

/-- `ENC`: start an encode transaction and emit the header (R82). -/
def execEnc (s : State) : Host.Outcome State Fault Refusal :=
  acceptCommand s (startEncode s)

/-- `DEC`: start a decode transaction and arm the skip stage (R83). -/
def execDec (s : State) : Host.Outcome State Fault Refusal :=
  acceptCommand s (startDecode s)

/-- `RESULT`: observe the result of the last transaction (R86). No register changes; in a phase without a result the
observation has no value (R23). -/
def execResult (s : State) : Host.Outcome State Fault Refusal :=
  match s.phase with
  | .doneOk =>
    match Memory.readRange s.obuf 0 s.olen with
    | some data => .next (showResult s (okRecord s data))
    | none => .fault .unwrittenByte
  | .doneErr => .next (showResult s (errRecord s))
  | .idle | .skip | .body => .refused .noResult

/-- `RESET`: in any phase (R150). -/
def execReset (s : State) : Host.Outcome State Fault Refusal :=
  .next (resetEvent s)

/-- `TOK.RESERVED`: never accepted, never treated as another token (R56, 93 U2). -/
def execTokReserved (_payload : Byte) (_s : State) : Host.Outcome State Fault Refusal :=
  .refused .reservedTokenKind

end Sys2Proof.Machine
end

