-- ==== Sys2Proof/Machine/Decoder.lean ====
section
/-!
DEFINITION. The meanings of the six token operations of a decode transaction (43_decoder.md).
-/

namespace Sys2Proof.Machine

/-- `DEC.SKIP.DATA`: discard one header byte; the payload is ignored (R101, R57). -/
def execDecSkipData (_payload : Byte) (s : State) : Host.Outcome State Fault Refusal :=
  acceptToken .dec .skip s (skipHeaderByte s)

/-- `DEC.SKIP.END`: complete with an empty result; shortness is no error (R102, R57). -/
def execDecSkipEnd (_payload : Byte) (s : State) : Host.Outcome State Fault Refusal :=
  acceptToken .dec .skip s (endOfInput s)

/-- `DEC.SKIP.ERR`: fail the decode transaction in the skip stage (R103). -/
def execDecSkipErr (c : Byte) (s : State) : Host.Outcome State Fault Refusal :=
  acceptToken .dec .skip s (raiseReadError c s)

/-- `DEC.DATA`: append `SUB8(b, KEY[KIDX])` and step the key index (R104). -/
def execDecData (b : Byte) (s : State) : Host.Outcome State Fault Refusal :=
  acceptToken .dec .body s (emitContent s (sub8 b (keyAt s.kidx)))

/-- `DEC.END`: complete the decode transaction; the payload is ignored (R105, R57). -/
def execDecEnd (_payload : Byte) (s : State) : Host.Outcome State Fault Refusal :=
  acceptToken .dec .body s (endOfInput s)

/-- `DEC.ERR`: fail the decode transaction after the header (R106). -/
def execDecErr (c : Byte) (s : State) : Host.Outcome State Fault Refusal :=
  acceptToken .dec .body s (raiseReadError c s)

end Sys2Proof.Machine
end

