-- ==== Sys2Proof/Machine/Encoder.lean ====
section
/-!
DEFINITION. The meanings of the three token operations of an encode transaction (42_encoder.md).
-/

namespace Sys2Proof.Machine

/-- `ENC.DATA`: append `ADD8(b, KEY[KIDX])` and step the key index (R91). -/
def execEncData (b : Byte) (s : State) : Host.Outcome State Fault Refusal :=
  acceptToken .enc .body s (emitContent s (add8 b (keyAt s.kidx)))

/-- `ENC.END`: complete the encode transaction; the payload is ignored (R92, R57). -/
def execEncEnd (_payload : Byte) (s : State) : Host.Outcome State Fault Refusal :=
  acceptToken .enc .body s (endOfInput s)

/-- `ENC.ERR`: fail the encode transaction (R93). -/
def execEncErr (c : Byte) (s : State) : Host.Outcome State Fault Refusal :=
  acceptToken .enc .body s (raiseReadError c s)

end Sys2Proof.Machine
end

