-- ==== Sys2Proof/Machine/Dispatch.lean ====
section
/-!
DEFINITION. The dispatch of one instruction to its meaning, one arm per row of spec/opcode_table.json.
-/

namespace Sys2Proof.Machine

def exec (i : Instr) (s : State) : Host.Outcome State Fault Refusal :=
  match i with
  | .enc => Sys2Proof.Machine.execEnc s
  | .dec => Sys2Proof.Machine.execDec s
  | .encData b => Sys2Proof.Machine.execEncData b s
  | .encEnd p => Sys2Proof.Machine.execEncEnd p s
  | .encErr c => Sys2Proof.Machine.execEncErr c s
  | .decSkipData p => Sys2Proof.Machine.execDecSkipData p s
  | .decSkipEnd p => Sys2Proof.Machine.execDecSkipEnd p s
  | .decSkipErr c => Sys2Proof.Machine.execDecSkipErr c s
  | .decData b => Sys2Proof.Machine.execDecData b s
  | .decEnd p => Sys2Proof.Machine.execDecEnd p s
  | .decErr c => Sys2Proof.Machine.execDecErr c s
  | .tokReserved p => Sys2Proof.Machine.execTokReserved p s
  | .result => Sys2Proof.Machine.execResult s
  | .reset => Sys2Proof.Machine.execReset s

end Sys2Proof.Machine
end

