-- ==== Sys2Proof/Machine/Step.lean ====
section
/-!
DEFINITION. One step of a CORE instance (R80): the next transfer is taken from what the agents offer, decoded in the
present mode, and executed.
-/

namespace Sys2Proof.Machine

/-- One step (R20, R80): one transfer, the reset event first where one is pending (R136). The transfer made is consumed,
the others stay offered. Where nothing offered can be transferred there is no step. -/
def step (s : State) : Host.Outcome State Fault Refusal :=
  match nextTransfer s.phase s.offers with
  | none => .fault .noTransfer
  | some (o, rest) =>
    match decode s.op s.phase o with
    | .error e => .refused (decodeRefusal e)
    | .ok i => exec i { s with offers := rest }

/-- The state with a word of the opcode table offered first, at a port that can transfer it, so that the next step
makes exactly that transfer: a pending reset, which would come before it, is withdrawn (log entry 14). -/
def State.withFetchWord (s : State) (nbits w : Nat) : State :=
  match tableOffer nbits w with
  | none => s
  | some o => { openPort s o with offers := o :: s.offers.filter (· ≠ .reset) }

end Sys2Proof.Machine
end

