-- ==== Sys2Proof/Machine/Streams.lean ====
section
/-!
DEFINITION. The two whole-transaction functions of 44_stream_laws.md (R110, R111) and the transfers of a transaction
(R60, R61).
-/

namespace Sys2Proof.Machine

/-- `k(i) = KEY[i mod 37]`, the key byte of content position `i` (44_stream_laws.md). -/
def keyOf (i : Nat) : Byte := keyAt (BitVec.ofNat 6 (i % keyLen))

/-- The ciphertext of the content bytes from content position `i` on (R110). -/
def encContent : Nat → List Byte → List Byte
  | _, [] => []
  | i, b :: bs => add8 b (keyOf i) :: encContent (i + 1) bs

/-- The plaintext of the content bytes from content position `i` on (R111). -/
def decContent : Nat → List Byte → List Byte
  | _, [] => []
  | i, b :: bs => sub8 b (keyOf i) :: decContent (i + 1) bs

/-- `enc(x)`: the header, then one transformed byte per input byte (R110). -/
def encStream (x : List Byte) : List Byte := headerRom ++ encContent 0 x

/-- `dec(y)`: one transformed byte per input byte after the first 123 (R111). -/
def decStream (y : List Byte) : List Byte := decContent 0 (y.drop headerLen)

/-- `D hh` for each byte of a stream, in stream order (R60). -/
def dataOffers (x : List Byte) : List Offer := x.map fun b => Offer.tok (tokWord .data b)

/-- The one final token of a stream: `END`, whose payload is written as 0 (R60). -/
def endOffer : Offer := .tok (tokWord .endOfInput 0)

/-- `ERR hh` (R60). -/
def errOffer (c : Byte) : Offer := .tok (tokWord .err c)

/-- The command line `ENC` or `DEC` (R60). -/
def cmdOffer (op : Op) : Offer := .cmd (opCode op)

/-- `ENCODE x` for `enc` and `DECODE x` for `dec` (R61). -/
def transaction (op : Op) (x : List Byte) : List Offer := cmdOffer op :: (dataOffers x ++ [endOffer])

/-- A command, `DATA` tokens, and then a read failure with cause `c` (R112). -/
def failedTransaction (op : Op) (x : List Byte) (c : Byte) : List Offer :=
  cmdOffer op :: (dataOffers x ++ [errOffer c])

end Sys2Proof.Machine
end

