-- ==== Sys2Proof/Machine/System.lean ====
section
/-!
DEFINITION. Several CORE instances side by side (R140): each has its own complete state and ports, they share nothing
that can change, and their steps interleave. The values a reset leaves unspecified depend on the instance's own reset
count alone, so two instances agree on them after equally many resets: the model's choice (log entry 18).
-/

namespace Sys2Proof.Machine

/-- Any number of instances; an instance has no identifier but its place in the list. -/
abbrev System := List State

/-- A step of the instance at place `n`, if that instance exists and has one; no other instance moves (R140). -/
def stepAt (n : Nat) (sys : System) : Option System :=
  match sys[n]? with
  | none => none
  | some s =>
    match step s with
    | .next t => some (sys.set n t)
    | .fault _ => none
    | .refused _ => none

end Sys2Proof.Machine
end

