-- ==== Sys2Proof/Safety.lean ====
section
/-!
DEFINITION. What counts as a safe state and a safe run, in the words the statements use: the invariants of R19, the
frame of an operation, reachable states, and the transition table of R81 written out from the spec.
-/

namespace Sys2Proof.Machine

/-- The next state of an outcome, if it is one. -/
def nextState? : Host.Outcome State Fault Refusal → Option State
  | .next t => some t
  | .fault _ => none
  | .refused _ => none

/-- `n` steps, stopping at the first that is no next state. -/
def runSteps : Nat → State → Host.Outcome State Fault Refusal
  | 0, s => .next s
  | n + 1, s =>
    match step s with
    | .next t => runSteps n t
    | .fault f => .fault f
    | .refused r => .refused r

/-- `PHASE` in {`IDLE`, `DONE_OK`, `DONE_ERR`}: where R82 and R83 accept a command. -/
abbrev State.notBusy (s : State) : Prop := s.phase ∈ [Phase.idle, .doneOk, .doneErr]

/-- The busy modes the map of R53 gives operations for. -/
abbrev State.busyMode (s : State) : Prop :=
  (s.op = .enc ∧ s.phase = .body) ∨ (s.op = .dec ∧ s.phase = .skip) ∨ (s.op = .dec ∧ s.phase = .body)

/-- `OBUF[0:OLEN]` holds exactly these bytes, index 0 first (R33). -/
abbrev State.bufferIs (s : State) (data : List Byte) : Prop :=
  data.length = s.olen ∧ ∀ a, a < s.olen → Memory.read s.obuf a = data[a]?

/-- What stands at the ports is untouched: the pending offers, the record the host last took, the reset count. -/
abbrev keepsPorts (s t : State) : Prop :=
  t.offers = s.offers ∧ t.resPort = s.resPort ∧ t.draws = s.draws

/-- Every index of `OBUF` reads as before. -/
abbrev keepsBytes (s t : State) : Prop :=
  ∀ a, Memory.read t.obuf a = Memory.read s.obuf a

/-- The seven pieces of state R10 gives an instance are unchanged. -/
abbrev keepsCore (s t : State) : Prop :=
  t.op = s.op ∧ t.phase = s.phase ∧ t.hcnt = s.hcnt ∧ t.kidx = s.kidx ∧ t.olen = s.olen ∧
    t.errcause = s.errcause ∧ t.obuf = s.obuf

/-- `OBUF` is in its canonical form and no element at or beyond `OLEN` is held (R16). -/
structure State.BufferInv (s : State) : Prop where
  canonical : Memory.wf s.obuf = true
  belowLen  : ∀ a, s.olen ≤ a → Memory.read s.obuf a = none

/-- The invariants (a) to (f) of R19, with the form of `OBUF` (R16). -/
structure State.Inv (s : State) : Prop where
  buffer : s.BufferInv
  /-- (a) -/
  inSkip : s.phase = .skip → s.op = .dec ∧ s.hcnt.toNat < 123 ∧ s.olen = 0 ∧ s.kidx = 0
  /-- (b) -/
  inBody : s.phase = .body → s.hcnt = 123 ∧
    ∃ n, s.kidx.toNat = n % 37 ∧ s.olen = n + (if s.op = .enc then 123 else 0)
  /-- (c) -/
  inDoneErr : s.phase = .doneErr → s.olen = 0
  /-- (d) -/
  legalCounters : s.phase ≠ .idle → s.kidx.toNat ≤ 36 ∧ s.hcnt.toNat ≤ 123
  /-- (e) -/
  headerEmitted : s.op = .enc → s.phase = .body ∨ s.phase = .doneOk →
    123 ≤ s.olen ∧ ∀ a, a < 123 → Memory.read s.obuf a = headerRom[a]?
  /-- (f) -/
  legalCode : (phaseCode s.phase).toNat ≤ 4
  /-- every element below `OLEN` has a value once a command has been accepted (R16) -/
  filled : s.phase ≠ .idle → ∀ a, a < s.olen → (Memory.read s.obuf a).isSome

/-- The states a run can reach from reset: the agents may change what they offer at any time, the CORE steps. -/
inductive Reachable : State → Prop where
  | reset : Reachable State.reset
  | offer {s : State} (os : List Offer) : Reachable s → Reachable { s with offers := os }
  | step {s t : State} : Reachable s → step s = .next t → Reachable t

/-- Two instances between which no rule of a later transaction can tell (R24): the same phase, and outside `IDLE` the
same registers and buffer; `ERRCAUSE` counts only in `DONE_ERR`. -/
structure agree (s t : State) : Prop where
  phase : s.phase = t.phase
  registers : s.phase ≠ .idle →
    s.op = t.op ∧ s.hcnt = t.hcnt ∧ s.kidx = t.kidx ∧ s.olen = t.olen ∧ s.obuf = t.obuf
  cause : s.phase = .doneErr → s.errcause = t.errcause

/-- The table of R81 (with the observation, which moves no phase, R86): the phase after a transfer, from the phase and
`HCNT` before it; none for a pair that is not listed. -/
def phaseAfter (phase : Phase) (hcnt : Nat) : Offer → Option Phase
  | .reset => some .idle
  | .cmd w =>
    match phase with
    | .idle | .doneOk | .doneErr => if w = 0#1 then some .body else some .skip
    | .skip | .body => none
  | .tok w =>
    match phase, tokKind w with
    | .skip, .data => if hcnt = 122 then some .body else some .skip
    | .body, .data => some .body
    | .skip, .endOfInput | .body, .endOfInput => some .doneOk
    | .skip, .err | .body, .err => some .doneErr
    | .skip, .reserved | .body, .reserved | .idle, _ | .doneOk, _ | .doneErr, _ => none
  | .result =>
    match phase with
    | .doneOk => some .doneOk
    | .doneErr => some .doneErr
    | .idle | .skip | .body => none

/-- The operations a read failure raises: the three `ERR` rows (R130). -/
def raisesReadError : Instr → Bool
  | .encErr _ | .decSkipErr _ | .decErr _ => true
  | .enc | .dec | .encData _ | .encEnd _ | .decSkipData _ | .decSkipEnd _ | .decData _ | .decEnd _
  | .tokReserved _ | .result | .reset => false

/-- The three `END` rows. -/
def endsInput : Instr → Bool
  | .encEnd _ | .decSkipEnd _ | .decEnd _ => true
  | .enc | .dec | .encData _ | .encErr _ | .decSkipData _ | .decSkipErr _ | .decData _ | .decErr _
  | .tokReserved _ | .result | .reset => false

end Sys2Proof.Machine
end

