-- ==== Sys2Proof/Certificates/Slice0/Obligations.lean ====
section
/-!
DEFINITION. The statements for the provers, taken from the numbered rules of spec/. Nothing is proved here.
-/

open Sys2Proof Sys2Proof.Machine

/-! ### Constants and datapath (20_memory.md, 40_datapath_primitives.md) -/

/-- R31, R32: the two ROMs are the ASCII codes of the two literals, index 0 first, with the checks the rules list. An
index of `KEY` above 36, where R31 gives no value, is left open. -/
def Obligations.RomsAreTheLiterals : Prop :=
  keyRom.map (fun b => Char.ofNat b.toNat) = "odBearBecauseHeIsVeryGoodSiuHungIsAGo".toList ∧
  keyRom.length = 37 ∧ (keyRom.map BitVec.toNat).sum = 3603 ∧ (∀ b ∈ keyRom, 0x41 ≤ b.toNat ∧ b.toNat ≤ 0x79) ∧
  (∀ k : BitVec 6, k.toNat < 37 → keyRom[k.toNat]? = some (keyAt k)) ∧
  headerRom.map (fun b => Char.ofNat b.toNat) =
    ("This is sample data as bytes. The first 123 bytes are ignored during decoding, " ++
      "the rest are decoded using a caesar cipher. ").toList ∧
  headerRom.length = 123 ∧ headerLen = 123 ∧ (headerRom.map BitVec.toNat).sum = 11055 ∧
  headerRom[0]? = some 0x54 ∧ headerRom[121]? = some 0x2E ∧ headerRom[122]? = some 0x20

/-- R70: `ADD8(a, b) = (a + b) mod 256`, commutative, with the rule's corner cases. -/
def Obligations.Add8IsSumModulo256 : Prop :=
  (∀ a b : Byte, (add8 a b).toNat = (a.toNat + b.toNat) % 256) ∧
  (∀ a b : Byte, add8 a b = add8 b a) ∧ (∀ a : Byte, add8 a 0 = a) ∧
  add8 255 1 = 0 ∧ add8 255 255 = 254 ∧ add8 128 128 = 0 ∧ add8 127 1 = 128 ∧ add8 0x3C 0x6F = 0xAB

/-- R71: `SUB8(a, b)` is `a - b` when `a >= b` and `a - b + 256` when `a < b`, with the rule's identities. -/
def Obligations.Sub8IsDifferenceModulo256 : Prop :=
  (∀ a b : Byte, b.toNat ≤ a.toNat → (sub8 a b).toNat = a.toNat - b.toNat) ∧
  (∀ a b : Byte, a.toNat < b.toNat → (sub8 a b).toNat + b.toNat = a.toNat + 256) ∧
  (∀ a : Byte, sub8 a 0 = a ∧ sub8 a a = 0) ∧
  (∀ a b : Byte, sub8 a b = sub8 0 (sub8 b a)) ∧
  (∀ a b : Byte, sub8 a b = add8 (add8 a (255 - b)) 1) ∧
  sub8 0 1 = 255 ∧ sub8 0 255 = 1 ∧ sub8 0 128 = 128 ∧ sub8 128 128 = 0 ∧ sub8 0xAB 0x6F = 0x3C

/-- R72: with the same second operand the adder and the subtractor undo each other, and each permutes the bytes. -/
def Obligations.AdderAndSubtractorAreInverse : Prop :=
  ∀ k : Byte,
    (∀ a : Byte, sub8 (add8 a k) k = a) ∧ (∀ c : Byte, add8 (sub8 c k) k = c) ∧
    Function.Bijective (fun a => add8 a k) ∧ Function.Bijective (fun c => sub8 c k)

/-- R73: `NEXTK` steps 0..36 cyclically and, applied `n` times from 0, gives `n mod 37`. Also `HNEXT(h) = h + 1` on
0..122, giving 1..123 (section 4 of the same file). -/
def Obligations.CountersStepAsTheRulesSay : Prop :=
  (∀ k : BitVec 6, k.toNat < 36 → (nextk k).toNat = k.toNat + 1) ∧ nextk 36 = 0 ∧
  (∀ n : Nat, (Nat.iterate nextk n 0).toNat = n % 37) ∧
  (∀ h : BitVec 7, h.toNat ≤ 122 →
    (hnext h).toNat = h.toNat + 1 ∧ 1 ≤ (hnext h).toNat ∧ (hnext h).toNat ≤ 123)

/-! ### Words (30_encoding.md) -/

/-- R53: the map from (`OP`, `PHASE`) and the token kind to the operation, with a word's fields at their bits (R52):
every row of the map, the rows without an operation included; and the selection of a command, with the phases in which
a command and a token can be accepted. -/
def Obligations.TokenMapFollowsTheMode : Prop :=
  (∀ op phase, decode op phase (.cmd 0) = .ok .enc ∧ decode op phase (.cmd 1) = .ok .dec) ∧
  (∀ phase, (∀ w, portOpen phase (.cmd w) = true ↔ phase ∈ [Phase.idle, .doneOk, .doneErr]) ∧
    (∀ w, portOpen phase (.tok w) = true ↔ phase ∈ [Phase.skip, .body])) ∧
  ∀ (kind : BitVec 2) (p : Byte),
    let w : TokWord := kind ++ p
    (kind = 0 →
      decode .enc .body (.tok w) = .ok (.encData p) ∧ decode .dec .skip (.tok w) = .ok (.decSkipData p) ∧
      decode .dec .body (.tok w) = .ok (.decData p)) ∧
    (kind = 1 →
      decode .enc .body (.tok w) = .ok (.encEnd p) ∧ decode .dec .skip (.tok w) = .ok (.decSkipEnd p) ∧
      decode .dec .body (.tok w) = .ok (.decEnd p)) ∧
    (kind = 2 →
      decode .enc .body (.tok w) = .ok (.encErr p) ∧ decode .dec .skip (.tok w) = .ok (.decSkipErr p) ∧
      decode .dec .body (.tok w) = .ok (.decErr p)) ∧
    (kind = 3 → ∀ op phase, decode op phase (.tok w) = .ok (.tokReserved p)) ∧
    (kind ≠ 3 →
      (∀ op phase, phase ∈ [Phase.idle, .doneOk, .doneErr] →
        decode op phase (.tok w) = .error .tokenWhileNotBusy) ∧
      decode .enc .skip (.tok w) = .error .unreachableMode)

/-- A few words written out from the formats of R51 and R52 decode to the operations they stand for. -/
def Obligations.SampleWordsDecode : Prop :=
  decode .enc .idle (.cmd 0b0#1) = .ok .enc ∧ decode .enc .idle (.cmd 0b1#1) = .ok .dec ∧
  decode .enc .body (.tok 0b0001001000#10) = .ok (.encData 0x48) ∧
  decode .enc .body (.tok 0b0111111111#10) = .ok (.encEnd 0xFF) ∧
  decode .dec .skip (.tok 0b1000000111#10) = .ok (.decSkipErr 7) ∧
  decode .dec .body (.tok 0b0010110111#10) = .ok (.decData 0xB7) ∧
  decode .dec .body (.tok 0b1100000000#10) = .ok (.tokReserved 0)

/-- Decoding what the encoder gives an instruction gives that instruction back, with every operand at every value, in
the instruction's mode (every mode where the instruction has none of its own). The reserved token is included. -/
def Obligations.DecodeOfEncodeIsIdentity : Prop :=
  ∀ (i : Instr) (op : Op) (phase : Phase),
    (tokenMode i = none ∨ tokenMode i = some (op, phase)) → decode op phase (encode i) = .ok i

/-- Whatever the decoder answers for an offered transfer, encoding it gives that transfer back, bit for bit, and the
mode is the one the instruction belongs to: no two transfers of one mode stand for one instruction. -/
def Obligations.EncodeOfDecodeIsIdentity : Prop :=
  ∀ (o : Offer) (op : Op) (phase : Phase) (i : Instr), decode op phase o = .ok i →
    encode i = o ∧ (tokenMode i = none ∨ tokenMode i = some (op, phase))

/-- R56: a token word of kind 11 is reported invalid in every mode, is no other operation, and the machine refuses it
in every state, so that nothing changes. -/
def Obligations.ReservedTokenIsRefused : Prop :=
  (∀ (p : Byte) (s : State), exec (.tokReserved p) s = .refused .reservedTokenKind) ∧
  (∀ (w : TokWord) (op : Op) (phase : Phase), w.extractLsb' 8 2 = 3#2 →
    ∃ p, decode op phase (.tok w) = .ok (.tokReserved p) ∧ (Instr.tokReserved p).wellFormed = false)

/-- R57: the payload of `END` and of a skipped `DATA` makes no difference, in any state; a skipped `DATA` is still
consumed and counted, whatever its payload (by a step with no reset pending, which would come first, R136). -/
def Obligations.IgnoredPayloadsMakeNoDifference : Prop :=
  (∀ (p q : Byte) (s : State),
    exec (.encEnd p) s = exec (.encEnd q) s ∧ exec (.decSkipEnd p) s = exec (.decSkipEnd q) s ∧
    exec (.decEnd p) s = exec (.decEnd q) s ∧ exec (.decSkipData p) s = exec (.decSkipData q) s) ∧
  (∀ (p q : Byte) (s : State) (rest : List Offer), .reset ∉ rest → s.phase = .skip ∨ s.phase = .body →
    step { s with offers := .tok (1#2 ++ p) :: rest } =
      step { s with offers := .tok (1#2 ++ q) :: rest }) ∧
  (∀ (p : Byte) (s : State) (rest : List Offer), .reset ∉ rest → s.op = .dec → s.phase = .skip → s.hcnt.toNat < 123 →
    ∃ t, step { s with offers := .tok (0#2 ++ p) :: rest } = .next t ∧ t.offers = rest ∧
      t.hcnt.toNat = s.hcnt.toNat + 1)

/-! ### Commands and the result (41_commands.md) -/

/-- R82: `ENC` outside `SKIP` and `BODY` completes: the registers it writes, the header in `OBUF` and nothing from
index 123 upward, and its frame; in a busy phase it is not accepted. -/
def Obligations.EncStartsAnEncodeTransaction : Prop :=
  ∀ s : State,
    (s.phase ∈ [Phase.idle, .doneOk, .doneErr] →
      ∃ t, exec .enc s = .next t ∧ t.op = .enc ∧ t.olen = 123 ∧ t.hcnt = 123 ∧ t.kidx = 0 ∧ t.phase = .body ∧
        (∀ a, a < 123 → Memory.read t.obuf a = headerRom[a]?) ∧ (∀ a, 123 ≤ a → Memory.read t.obuf a = none) ∧
        t.errcause = s.errcause ∧ keepsPorts s t) ∧
    (s.phase = .skip ∨ s.phase = .body → exec .enc s = .refused .commandWhileBusy)

/-- R83: `DEC` outside `SKIP` and `BODY` completes: the registers it writes, the empty `OBUF`, and its frame; in a
busy phase it is not accepted. -/
def Obligations.DecArmsTheSkipStage : Prop :=
  ∀ s : State,
    (s.phase ∈ [Phase.idle, .doneOk, .doneErr] →
      ∃ t, exec .dec s = .next t ∧ t.op = .dec ∧ t.olen = 0 ∧ t.hcnt = 0 ∧ t.kidx = 0 ∧ t.phase = .skip ∧
        (∀ a, Memory.read t.obuf a = none) ∧ t.errcause = s.errcause ∧ keepsPorts s t) ∧
    (s.phase = .skip ∨ s.phase = .body → exec .dec s = .refused .commandWhileBusy)

/-- R86: in `DONE_OK` the observation carries the record of the whole buffer, in `DONE_ERR` that of the error; no
register or buffer byte changes, a second observation gives the same; in any other phase it has no value. In a state
with the invariants of R19 the record of a successful encode transaction is at least 123 bytes long. -/
def Obligations.ResultShowsTheBufferOrTheError : Prop :=
  ∀ s : State,
    (s.phase = .doneOk → ∀ data, s.bufferIs data →
      ∃ t, exec .result s = .next t ∧ exec .result t = .next t ∧
        t.resPort = some { ok := true, kind := s.op, cause := none, len := s.olen, data := data } ∧
        keepsCore s t ∧ t.offers = s.offers ∧ t.draws = s.draws) ∧
    (s.phase = .doneErr →
      ∃ t, exec .result s = .next t ∧ exec .result t = .next t ∧
        t.resPort = some { ok := false, kind := s.op, cause := some s.errcause, len := 0, data := [] } ∧
        keepsCore s t ∧ t.offers = s.offers ∧ t.draws = s.draws) ∧
    (s.phase = .idle ∨ s.phase = .skip ∨ s.phase = .body → exec .result s = .refused .noResult) ∧
    (s.Inv → s.phase = .doneOk → s.op = .enc → 123 ≤ s.olen)

/-- Model's choice (log entry 12): with an element below `OLEN` that holds no value, which no reachable state has, the
observation faults. -/
def Obligations.ResultOfAnUnwrittenByteFaults : Prop :=
  ∀ (s : State) (a : Nat), s.phase = .doneOk → a < s.olen → Memory.read s.obuf a = none →
    exec .result s = .fault .unwrittenByte

/-- R23: a result stays the same until a command or reset: whatever else completes in a phase that has a result is the
observation, and it leaves all seven pieces of state alone; before the end there is no result. -/
def Obligations.ResultStaysUntilCommandOrReset : Prop :=
  (∀ s : State, s.phase ∈ [Phase.idle, .skip, .body] → exec .result s = .refused .noResult) ∧
  (∀ (i : Instr) (s t : State), s.phase ∈ [Phase.doneOk, .doneErr] → exec i s = .next t →
    i ≠ .enc → i ≠ .dec → i ≠ .reset → i = .result ∧ keepsCore s t)

/-! ### The encoder (42_encoder.md) -/

/-- R91: `ENC.DATA` in an encode body completes: `(b + KEY[KIDX]) mod 256` at index `OLEN`, `OLEN + 1`, the next key
index, and its frame. The rule speaks of `KIDX` in 0..36; above it the key byte is a free value and the rest holds. -/
def Obligations.EncDataAppendsTheSum : Prop :=
  ∀ (s : State) (b : Byte), s.op = .enc → s.phase = .body →
    ∃ t, exec (.encData b) s = .next t ∧ t.olen = s.olen + 1 ∧
      Memory.read t.obuf s.olen = some (add8 b (keyAt s.kidx)) ∧
      (s.kidx.toNat ≤ 36 →
        (∃ k c, keyRom[s.kidx.toNat]? = some k ∧ Memory.read t.obuf s.olen = some c ∧
          c.toNat = (b.toNat + k.toNat) % 256) ∧
        t.kidx.toNat = if s.kidx.toNat = 36 then 0 else s.kidx.toNat + 1) ∧
      (∀ a, a ≠ s.olen → Memory.read t.obuf a = Memory.read s.obuf a) ∧
      t.phase = s.phase ∧ t.op = s.op ∧ t.hcnt = s.hcnt ∧ t.errcause = s.errcause ∧ keepsPorts s t

/-- R92: `ENC.END` in an encode body completes: `PHASE` is `DONE_OK`, everything else unchanged, and the result is the
buffer as it stands. -/
def Obligations.EncEndCompletes : Prop :=
  ∀ (s : State) (p : Byte), s.op = .enc → s.phase = .body →
    ∃ t, exec (.encEnd p) s = .next t ∧ t.phase = .doneOk ∧ t.op = s.op ∧ t.hcnt = s.hcnt ∧ t.kidx = s.kidx ∧
      t.olen = s.olen ∧ t.errcause = s.errcause ∧ keepsBytes s t ∧ keepsPorts s t ∧
      ∀ data, s.bufferIs data → ∃ u, exec .result t = .next u ∧
        u.resPort = some { ok := true, kind := .enc, cause := none, len := s.olen, data := data }

/-- R93: `ENC.ERR` in an encode body completes with the error entry: cause kept, buffer dropped, encode-side error,
`OP`, `HCNT`, `KIDX` unchanged. -/
def Obligations.EncErrFailsTheTransaction : Prop :=
  ∀ (s : State) (c : Byte), s.op = .enc → s.phase = .body →
    ∃ t, exec (.encErr c) s = .next t ∧ t.phase = .doneErr ∧ t.errcause = c ∧ t.olen = 0 ∧
      (∀ a, Memory.read t.obuf a = none) ∧ t.op = s.op ∧ t.hcnt = s.hcnt ∧ t.kidx = s.kidx ∧ keepsPorts s t ∧
      ∃ u, exec .result t = .next u ∧
        u.resPort = some { ok := false, kind := .enc, cause := some c, len := 0, data := [] }

/-! ### The decoder (43_decoder.md) -/

/-- R101: `DEC.SKIP.DATA` in the skip stage completes: it counts one header byte, the 123rd opens the body, and
nothing else changes. -/
def Obligations.DecSkipDataDiscardsAHeaderByte : Prop :=
  ∀ (s : State) (p : Byte), s.op = .dec → s.phase = .skip →
    ∃ t, exec (.decSkipData p) s = .next t ∧
      (s.hcnt = 122 → t.hcnt = 123 ∧ t.phase = .body) ∧
      (s.hcnt.toNat < 122 → t.hcnt.toNat = s.hcnt.toNat + 1) ∧ (s.hcnt ≠ 122 → t.phase = .skip) ∧
      t.op = s.op ∧ t.kidx = s.kidx ∧ t.olen = s.olen ∧ t.errcause = s.errcause ∧ keepsBytes s t ∧ keepsPorts s t

/-- R102: `DEC.SKIP.END` in the skip stage completes: `PHASE` is `DONE_OK`, everything else unchanged; where the
buffer is empty, as it is in the skip stage (R19), the result is the empty buffer. -/
def Obligations.DecSkipEndGivesTheEmptyBuffer : Prop :=
  ∀ (s : State) (p : Byte), s.op = .dec → s.phase = .skip →
    ∃ t, exec (.decSkipEnd p) s = .next t ∧ t.phase = .doneOk ∧ t.op = s.op ∧ t.hcnt = s.hcnt ∧ t.kidx = s.kidx ∧
      t.olen = s.olen ∧ t.errcause = s.errcause ∧ keepsBytes s t ∧ keepsPorts s t ∧
      (s.olen = 0 → ∃ u, exec .result t = .next u ∧
        u.resPort = some { ok := true, kind := .dec, cause := none, len := 0, data := [] })

/-- R103: `DEC.SKIP.ERR` in the skip stage completes with the error entry and a decode-side error. -/
def Obligations.DecSkipErrFailsTheTransaction : Prop :=
  ∀ (s : State) (c : Byte), s.op = .dec → s.phase = .skip →
    ∃ t, exec (.decSkipErr c) s = .next t ∧ t.phase = .doneErr ∧ t.errcause = c ∧ t.olen = 0 ∧
      (∀ a, Memory.read t.obuf a = none) ∧ t.op = s.op ∧ t.hcnt = s.hcnt ∧ t.kidx = s.kidx ∧ keepsPorts s t ∧
      ∃ u, exec .result t = .next u ∧
        u.resPort = some { ok := false, kind := .dec, cause := some c, len := 0, data := [] }

/-- R104: `DEC.DATA` in a decode body completes: `(b - KEY[KIDX]) mod 256` at index `OLEN`, `OLEN + 1`, the next key
index, and its frame. Above `KIDX` 36 the key byte is a free value and the rest holds. -/
def Obligations.DecDataAppendsTheDifference : Prop :=
  ∀ (s : State) (b : Byte), s.op = .dec → s.phase = .body →
    ∃ t, exec (.decData b) s = .next t ∧ t.olen = s.olen + 1 ∧
      Memory.read t.obuf s.olen = some (sub8 b (keyAt s.kidx)) ∧
      (s.kidx.toNat ≤ 36 →
        (∃ k c, keyRom[s.kidx.toNat]? = some k ∧ Memory.read t.obuf s.olen = some c ∧
          c.toNat = (b.toNat + 256 - k.toNat) % 256) ∧
        t.kidx.toNat = if s.kidx.toNat = 36 then 0 else s.kidx.toNat + 1) ∧
      (∀ a, a ≠ s.olen → Memory.read t.obuf a = Memory.read s.obuf a) ∧
      t.phase = s.phase ∧ t.op = s.op ∧ t.hcnt = s.hcnt ∧ t.errcause = s.errcause ∧ keepsPorts s t

/-- R105: `DEC.END` in a decode body completes: `PHASE` is `DONE_OK`, everything else unchanged, and the result is the
buffer as it stands. -/
def Obligations.DecEndCompletes : Prop :=
  ∀ (s : State) (p : Byte), s.op = .dec → s.phase = .body →
    ∃ t, exec (.decEnd p) s = .next t ∧ t.phase = .doneOk ∧ t.op = s.op ∧ t.hcnt = s.hcnt ∧ t.kidx = s.kidx ∧
      t.olen = s.olen ∧ t.errcause = s.errcause ∧ keepsBytes s t ∧ keepsPorts s t ∧
      ∀ data, s.bufferIs data → ∃ u, exec .result t = .next u ∧
        u.resPort = some { ok := true, kind := .dec, cause := none, len := s.olen, data := data }

/-- R106: `DEC.ERR` in a decode body completes with the error entry and a decode-side error. -/
def Obligations.DecErrFailsTheTransaction : Prop :=
  ∀ (s : State) (c : Byte), s.op = .dec → s.phase = .body →
    ∃ t, exec (.decErr c) s = .next t ∧ t.phase = .doneErr ∧ t.errcause = c ∧ t.olen = 0 ∧
      (∀ a, Memory.read t.obuf a = none) ∧ t.op = s.op ∧ t.hcnt = s.hcnt ∧ t.kidx = s.kidx ∧ keepsPorts s t ∧
      ∃ u, exec .result t = .next u ∧
        u.resPort = some { ok := false, kind := .dec, cause := some c, len := 0, data := [] }

/-- A token operation completes exactly in its own mode of R53, in every state, reachable or not. -/
def Obligations.TokenCompletesExactlyInItsMode : Prop :=
  ∀ (i : Instr) (op : Op) (phase : Phase) (s : State), tokenMode i = some (op, phase) →
    ((∃ t, exec i s = .next t) ↔ s.op = op ∧ s.phase = phase)

/-! ### Reset (10_state.md, 70_reset_and_hazards.md) -/

/-- R150: the reset event completes in every state: `PHASE` is `IDLE`, there is no result, and either command is
accepted. The registers the rule leaves unspecified are left open. -/
def Obligations.ResetReturnsToIdle : Prop :=
  ∀ s : State, ∃ t, exec .reset s = .next t ∧ t.phase = .idle ∧ exec .result t = .refused .noResult ∧
    (∃ u, exec .enc t = .next u) ∧ (∃ u, exec .dec t = .next u)

/-- After reset `PHASE` is `IDLE` (R26), and in every state with `PHASE` = `IDLE` the first thing that can happen is the
acceptance of a command or another reset: whatever is offered, no other transfer comes first. That no `OBUF` element has
a value in `State.reset` is the model's choice, which R26 allows (log entry 1). -/
def Obligations.AfterResetACommandComesFirst : Prop :=
  State.reset.phase = .idle ∧ (∀ a, Memory.read State.reset.obuf a = none) ∧
  ∀ s t : State, s.phase = .idle → step s = .next t →
    (∃ w rest, nextTransfer .idle s.offers = some (.cmd w, rest) ∧ t.offers = rest ∧
      t.phase = (if w = 0 then .body else .skip)) ∨
    (∃ rest, nextTransfer .idle s.offers = some (.reset, rest) ∧ t.offers = rest ∧ t.phase = .idle)

/-! ### The step (R20 to R22, R80, R81) -/

/-- A step is `exec` of the decoded instruction of the transfer it makes: the transfer is consumed, all others stay
offered in their order. That the transfer is the oldest at an open port (the offers before it wait at closed ports), unless a
reset is pending behind it (the statement `ResetOverridesEverythingOffered`), is the model's choice (log entry 7). -/
def Obligations.StepRunsTheDecodedInstruction : Prop :=
  ∀ (s : State) (pre post : List Offer) (o : Offer) (i : Instr), s.offers = pre ++ o :: post →
    (∀ x ∈ pre, portOpen s.phase x = false) → portOpen s.phase o = true → o = .reset ∨ .reset ∉ post →
    decode s.op s.phase o = .ok i → step s = exec i { s with offers := pre ++ post }

/-- A pending reset is the next step in every phase, whatever else is offered, a reserved token included, and the other
offers stay (R136 "Reset overrides everything", R150). Without a pending reset a reserved token that is the oldest offer
at an open port makes the step a refusal, the model's reading of R56's "there is no step" (log entries 7 and 10). -/
def Obligations.ResetOverridesEverythingOffered : Prop :=
  (∀ s : State, .reset ∈ s.offers →
    ∃ t, step s = .next t ∧ exec .reset { s with offers := s.offers.erase .reset } = .next t ∧ t.phase = .idle ∧
      t.offers = s.offers.erase .reset) ∧
  (∀ (s : State) (w : TokWord) (pre post : List Offer), s.phase = .skip ∨ s.phase = .body →
    w.extractLsb' 8 2 = 3#2 → s.offers = pre ++ .tok w :: post → (∀ x ∈ pre, portOpen s.phase x = false) →
    .reset ∉ post → step s = .refused .reservedTokenKind)

/-- Without an offer at an open port there is no step: the machine is stuck (93 U6, U9; log entry 8). -/
def Obligations.StepIsStuckWithoutATransfer : Prop :=
  ∀ s : State, (∀ o ∈ s.offers, portOpen s.phase o = false) ↔ step s = .fault .noTransfer

/-- R21: while the CORE is busy an offered command is not accepted, changes nothing and stays pending: the step is the
one without it. Outside the busy phases it is accepted, unless a reset is pending, which comes first (R136). -/
def Obligations.CommandWaitsWhileBusy : Prop :=
  (∀ (s : State) (w : CmdWord) (os : List Offer), s.phase = .skip ∨ s.phase = .body →
    step { s with offers := .cmd w :: os } =
      match step { s with offers := os } with
      | .next t => .next { t with offers := .cmd w :: t.offers }
      | .fault f => .fault f
      | .refused r => .refused r) ∧
  (∀ (s : State) (w : CmdWord) (os : List Offer), .reset ∉ os → s.phase ∈ [Phase.idle, .doneOk, .doneErr] →
    ∃ t, step { s with offers := .cmd w :: os } = .next t ∧ t.offers = os ∧
      t.phase = if w = 0 then .body else .skip)

/-- R22: outside `SKIP` and `BODY` an offered token is not accepted, changes nothing and is not consumed: the step is
the one without it. In a busy mode a token of a legal kind is accepted and consumed once, unless a reset is pending,
which comes first (R136). -/
def Obligations.TokenWaitsUntilBusy : Prop :=
  (∀ (s : State) (w : TokWord) (os : List Offer), s.phase ∈ [Phase.idle, .doneOk, .doneErr] →
    step { s with offers := .tok w :: os } =
      match step { s with offers := os } with
      | .next t => .next { t with offers := .tok w :: t.offers }
      | .fault f => .fault f
      | .refused r => .refused r) ∧
  (∀ (s : State) (w : TokWord) (os : List Offer), .reset ∉ os → s.busyMode → w.extractLsb' 8 2 ≠ 3#2 →
    ∃ t, step { s with offers := .tok w :: os } = .next t ∧ t.offers = os)

/-- R81: the transition table is complete. In a state with the invariants of R19, the next transfer has a step to a
phase exactly when the table lists that phase for it. -/
def Obligations.PhaseMovesExactlyByTheTable : Prop :=
  ∀ (s : State) (o : Offer) (rest : List Offer) (p : Phase), s.Inv →
    nextTransfer s.phase s.offers = some (o, rest) →
    ((∃ t, step s = .next t ∧ t.phase = p) ↔ phaseAfter s.phase s.hcnt.toNat o = some p)

/-- R84, R85: a busy transaction ends only by an `END` or `ERR` token or by reset, and each of them ends it. -/
def Obligations.OnlyEndErrOrResetLeavesBusy : Prop :=
  ∀ (i : Instr) (s t : State), s.phase = .skip ∨ s.phase = .body → exec i s = .next t →
    (t.phase = .doneOk ↔ endsInput i = true) ∧ (t.phase = .doneErr ↔ raisesReadError i = true) ∧
    (t.phase = .idle ↔ i = .reset)

/-! ### Registers and buffer over all operations -/

/-- `OP` is loaded by each command and held otherwise (R11), `ERRCAUSE` is written only by the error entry, with the
token's payload (R17, R133); reset leaves both open. -/
def Obligations.OpAndErrcauseWritersAreTheirRules : Prop :=
  ∀ (i : Instr) (s t : State), exec i s = .next t → i ≠ .reset →
    (i = .enc → t.op = .enc) ∧ (i = .dec → t.op = .dec) ∧ (i ≠ .enc → i ≠ .dec → t.op = s.op) ∧
    (raisesReadError i = false → t.errcause = s.errcause) ∧
    (raisesReadError i = true → encode i = errOffer t.errcause)

/-- `HCNT` never exceeds 123 and never decreases within a transaction (R13). -/
def Obligations.HeaderCounterNeverDecreasesInATransaction : Prop :=
  ∀ (i : Instr) (s t : State), s.Inv → s.phase = .skip ∨ s.phase = .body → exec i s = .next t → i ≠ .reset →
    s.hcnt.toNat ≤ t.hcnt.toNat ∧ t.hcnt.toNat ≤ 123

/-- `OBUF` is append-only: whatever completes and is no command, read failure or reset keeps every byte already
appended, and adds at most the byte at index `OLEN` (R16). -/
def Obligations.BufferIsAppendOnly : Prop :=
  ∀ (i : Instr) (s t : State), s.BufferInv → exec i s = .next t →
    i ≠ .enc → i ≠ .dec → i ≠ .reset → raisesReadError i = false →
    (∀ a v, Memory.read s.obuf a = some v → Memory.read t.obuf a = some v) ∧
    (∀ a, a ≠ s.olen → Memory.read t.obuf a = Memory.read s.obuf a) ∧
    (t.olen = s.olen ∧ t.obuf = s.obuf ∨ t.olen = s.olen + 1 ∧ ∃ v, Memory.read t.obuf s.olen = some v)

/-- What stands at the ports moves only by the ports' own transfers: no instruction touches the pending offers, only
the observation writes the record the host holds, only reset draws free values (log entries 3, 7 and 11). -/
def Obligations.PortsMoveOnlyByTheirOwnTransfers : Prop :=
  ∀ (i : Instr) (s t : State), exec i s = .next t →
    t.offers = s.offers ∧ (i ≠ .result → t.resPort = s.resPort) ∧
    t.draws = s.draws + (if i = .reset then 1 else 0)

/-! ### Invariants -/

/-- Every step keeps the form of `OBUF`: strictly rising indices, nothing held at or beyond `OLEN` (R16). -/
def Obligations.StepKeepsTheBufferForm : Prop :=
  ∀ s t : State, s.BufferInv → step s = .next t → t.BufferInv

/-- Every step keeps the invariants (a) to (f) of R19. -/
def Obligations.StepKeepsTheInvariants : Prop :=
  ∀ s t : State, s.Inv → step s = .next t → t.Inv

/-- The state right after reset has the invariants. -/
def Obligations.ResetHasTheInvariants : Prop := State.reset.Inv

/-- R19: every state reachable from reset, whatever the agents offer and however they change it, has the invariants. -/
def Obligations.ReachableStatesHaveTheInvariants : Prop :=
  ∀ s : State, Reachable s → s.Inv

/-! ### No state carries over; instances are independent -/

/-- R24: a command from any two states that accept it leaves them alike in all but `ERRCAUSE`; and two instances that
are alike, `ERRCAUSE` counting only in `DONE_ERR`, do alike on every instruction, the observed record included. -/
def Obligations.CommandForgetsEarlierTransactions : Prop :=
  (∀ (i : Instr) (s t : State), i = .enc ∨ i = .dec → s.notBusy → t.notBusy →
    ∃ s' t', exec i s = .next s' ∧ exec i t = .next t' ∧ agree s' t') ∧
  (∀ (i : Instr) (s t s' : State), agree s t → exec i s = .next s' →
    ∃ t', exec i t = .next t' ∧ agree s' t' ∧ (i = .result → s'.resPort = t'.resPort))

/-- R121: from the command on, a run does not depend on what the instance did before: two instances that are not busy
and are offered the same transfers, a command first (with a reset pending or not), stay alike at every step and show the same
result. -/
def Obligations.RunsDependOnTheTransfersOnly : Prop :=
  ∀ (n : Nat) (s t s' : State) (w : CmdWord) (os : List Offer), s.notBusy → t.notBusy →
    s.offers = .cmd w :: os → t.offers = .cmd w :: os → runSteps (n + 1) s = .next s' →
    ∃ t', runSteps (n + 1) t = .next t' ∧ agree s' t' ∧ s'.offers = t'.offers ∧
      ∀ u, exec .result s' = .next u → ∃ u', exec .result t' = .next u' ∧ u.resPort = u'.resPort

/-- R140: steps of different instances commute and leave each other's state alone. -/
def Obligations.InstancesStepIndependently : Prop :=
  (∀ (m n : Nat) (sys : System), m ≠ n → (stepAt m sys).bind (stepAt n) = (stepAt n sys).bind (stepAt m)) ∧
  (∀ (m n : Nat) (sys sys' : System), m ≠ n → stepAt m sys = some sys' → sys'[n]? = sys[n]?)

/-! ### Whole transactions (44_stream_laws.md) -/

/-- R110: an `ENCODE x` from any phase that accepts a command runs to `DONE_OK`, consumes its own transfers and no
more, and its result is `Ok(enc(x))`; no reset is pending (R151). -/
def Obligations.EncodeTransactionComputesEnc : Prop :=
  ∀ (s : State) (x : List Byte) (rest : List Offer), .reset ∉ rest → s.notBusy → s.offers = transaction .enc x ++ rest →
    ∃ t u, runSteps (x.length + 2) s = .next t ∧ t.phase = .doneOk ∧ t.offers = rest ∧
      exec .result t = .next u ∧
      u.resPort = some { ok := true, kind := .enc, cause := none, len := 123 + x.length, data := encStream x }

/-- R111: a `DECODE y` from any phase that accepts a command runs to `DONE_OK`, consumes its own transfers and no
more, and its result is `Ok(dec(y))`; no reset is pending (R151). -/
def Obligations.DecodeTransactionComputesDec : Prop :=
  ∀ (s : State) (y : List Byte) (rest : List Offer), .reset ∉ rest → s.notBusy → s.offers = transaction .dec y ++ rest →
    ∃ t u, runSteps (y.length + 2) s = .next t ∧ t.phase = .doneOk ∧ t.offers = rest ∧
      exec .result t = .next u ∧
      u.resPort = some { ok := true, kind := .dec, cause := none, len := y.length - 123, data := decStream y }

/-- R112: a command, any `DATA` tokens and then `ERR c` ends in `DONE_ERR` with the error of that kind and cause and no
buffer, whatever the data; no reset is pending (R151). -/
def Obligations.ReadFailureFailsTheWholeTransaction : Prop :=
  ∀ (s : State) (op : Op) (x : List Byte) (c : Byte) (rest : List Offer), .reset ∉ rest → s.notBusy →
    s.offers = failedTransaction op x c ++ rest →
    ∃ t u, runSteps (x.length + 2) s = .next t ∧ t.phase = .doneErr ∧ t.offers = rest ∧
      exec .result t = .next u ∧
      u.resPort = some { ok := false, kind := op, cause := some c, len := 0, data := [] }

/-- R14, R19 (b): after an encode command and `n` content bytes `KIDX = n mod 37` and `OLEN = 123 + n`, still in the
body; after a decode command, the 123 header bytes and `n` content bytes `KIDX = n mod 37` and `OLEN = n`. No reset is
pending (R151). -/
def Obligations.KeyIndexFollowsTheContentPosition : Prop :=
  (∀ (s : State) (x : List Byte) (rest : List Offer), .reset ∉ rest → s.notBusy →
    s.offers = cmdOffer .enc :: (dataOffers x ++ rest) →
    ∃ t, runSteps (x.length + 1) s = .next t ∧ t.phase = .body ∧ t.offers = rest ∧
      t.kidx.toNat = x.length % 37 ∧ t.olen = 123 + x.length) ∧
  (∀ (s : State) (h x : List Byte) (rest : List Offer), .reset ∉ rest → s.notBusy → h.length = 123 →
    s.offers = cmdOffer .dec :: (dataOffers (h ++ x) ++ rest) →
    ∃ t, runSteps (123 + x.length + 1) s = .next t ∧ t.phase = .body ∧ t.offers = rest ∧
      t.kidx.toNat = x.length % 37 ∧ t.olen = x.length)

/-- A busy transaction whose stream delivers its `END` completes, after as many steps as tokens (the premise is
`SourceEventuallyEnds`, R158; no reset is pending, R151). -/
def Obligations.TransactionEndsWhenItsStreamEnds : Prop :=
  ∀ (s : State) (x : List Byte) (rest : List Offer), .reset ∉ rest → s.busyMode →
    s.offers = dataOffers x ++ endOffer :: rest →
    ∃ t, runSteps (x.length + 1) s = .next t ∧ t.phase = .doneOk ∧ t.op = s.op ∧ t.offers = rest

/-- R35, R114: the encoded file: 123 + N bytes, the header in order at offsets 0..122, and at offset 123 + i the byte
`(x[i] + KEY[i mod 37]) mod 256`. -/
def Obligations.EncodedFileFormat : Prop :=
  encStream [] = headerRom ∧
  ∀ x : List Byte, (encStream x).length = 123 + x.length ∧ (encStream x).take 123 = headerRom ∧
    (∀ a, a < 123 → (encStream x)[a]? = headerRom[a]?) ∧
    (∀ i b, x[i]? = some b → ∃ k c, keyRom[i % 37]? = some k ∧ (encStream x)[123 + i]? = some c ∧
      c.toNat = (b.toNat + k.toNat) % 256)

/-- R113: `dec(enc(x)) = x` for every byte sequence, the empty one included. -/
def Obligations.DecodeOfEncodedStreamIsIdentity : Prop :=
  ∀ x : List Byte, decStream (encStream x) = x

/-- R115: a stream of at most 123 bytes decodes to the empty buffer, and its transaction, with no reset
pending (R151), ends with `ok = 1`. -/
def Obligations.ShortStreamsDecodeToNothing : Prop :=
  ∀ y : List Byte, y.length ≤ 123 → decStream y = [] ∧
    ∀ (s : State) (rest : List Offer), .reset ∉ rest → s.notBusy → s.offers = transaction .dec y ++ rest →
      ∃ t u, runSteps (y.length + 2) s = .next t ∧ exec .result t = .next u ∧
        u.resPort = some { ok := true, kind := .dec, cause := none, len := 0, data := [] }

/-- R116: the wraparound of the primitives and as it shows through the streams; no key byte is 1. -/
def Obligations.WraparoundShowsThroughTheStreams : Prop :=
  add8 255 1 = 0 ∧ sub8 0 1 = 255 ∧ (∀ k ∈ keyRom, k ≠ 1) ∧
  (encStream [0x91])[123]? = some 0x00 ∧ decStream (headerRom ++ [0x00]) = [0x91]

/-- R117: the period is 37: equal bytes 37 apart encode alike, and 37 equal bytes run through the whole key in order,
the 38th meeting `KEY[0]` again; the key bytes are not all equal. -/
def Obligations.KeyPeriodIs37 : Prop :=
  (∀ (x : List Byte) (i : Nat), i + 37 < x.length → x[i]? = x[i + 37]? →
    (encStream x)[123 + i]? = (encStream x)[123 + i + 37]?) ∧
  (∀ (b : Byte) (n i : Nat) (k : Byte), i < n → keyRom[i % 37]? = some k →
    (encStream (List.replicate n b))[123 + i]? = some (add8 b k)) ∧
  (∃ j k, j ∈ keyRom ∧ k ∈ keyRom ∧ j ≠ k)

/-- R118: the transform neither compresses nor pads. -/
def Obligations.StreamLengths : Prop :=
  ∀ x : List Byte, (encStream x).length = 123 + x.length ∧ (decStream x).length = x.length - 123

/-- R119: the decoder does not see the header's content, and re-encoding replaces it by the constant header. -/
def Obligations.DecoderIgnoresTheHeaderContent : Prop :=
  (∀ h h' c : List Byte, h.length = 123 → h'.length = 123 → decStream (h ++ c) = decStream (h' ++ c)) ∧
  (∀ y : List Byte, 123 ≤ y.length → encStream (decStream y) = headerRom ++ y.drop 123) ∧
  (∀ y : List Byte, y.length < 123 → encStream (decStream y) = headerRom)

/-- R120: content byte `i` of an output depends on content byte `i` of the input and on `i mod 37` alone, and both
functions preserve prefixes. -/
def Obligations.TransformIsLocalAndPrefixPreserving : Prop :=
  (∀ (x y : List Byte) (i j : Nat) (b : Byte), i % 37 = j % 37 → x[i]? = some b → y[j]? = some b →
    (encStream x)[123 + i]? = (encStream y)[123 + j]?) ∧
  (∀ (x y : List Byte) (i j : Nat) (b : Byte), i % 37 = j % 37 → x[123 + i]? = some b → y[123 + j]? = some b →
    (decStream x)[i]? = (decStream y)[j]?) ∧
  (∀ x y : List Byte, x <+: y → encStream x <+: encStream y ∧ decStream x <+: decStream y)

/-- R122: subtracting the plaintext from the ciphertext gives the key byte; a run of zero bytes encodes to the key. -/
def Obligations.KeyShowsThrough : Prop :=
  (∀ (x : List Byte) (i : Nat) (b : Byte), x[i]? = some b →
    ∃ c k, (encStream x)[123 + i]? = some c ∧ keyRom[i % 37]? = some k ∧ sub8 c b = k) ∧
  encStream (List.replicate 37 0) = headerRom ++ keyRom
end

