-- ==== Sys2Proof/Laws/Decode.lean ====
section
/-!
SUPPORT. Fields of an encoded token word, and when the decoder answers.
-/

namespace Sys2Proof

@[simp] theorem tokKind_tokWord (k : TokKind) (p : Byte) : tokKind (tokWord k p) = k := by
  have h : (tokWord k p).extractLsb' 8 2 = tokKindCode k := by
    unfold tokWord
    apply BitVec.eq_of_getLsbD_eq
    intro i hi
    simp only [BitVec.getLsbD_extractLsb', BitVec.getLsbD_append]
    simp [hi]
  cases k <;> simp [tokKind, h, tokKindCode]

@[simp] theorem tokPayload_tokWord (k : TokKind) (p : Byte) : tokPayload (tokWord k p) = p := by
  unfold tokPayload tokWord
  apply BitVec.eq_of_getLsbD_eq
  intro i hi
  simp only [BitVec.getLsbD_extractLsb', BitVec.getLsbD_append]
  simp [hi]

@[simp] theorem decodeCmd_opCode_enc : decodeCmd (opCode .enc) = .enc := rfl

@[simp] theorem decodeCmd_opCode_dec : decodeCmd (opCode .dec) = .dec := rfl

/-- A column of the map answers one of its three operations, in that operation's mode. -/
theorem byMode_ok {op : Op} {phase : Phase} {e k d i : Instr} (h : byMode op phase e k d = .ok i) :
    (op = .enc ∧ phase = .body ∧ i = e) ∨ (op = .dec ∧ phase = .skip ∧ i = k) ∨
      (op = .dec ∧ phase = .body ∧ i = d) := by
  cases op <;> cases phase <;> simp_all [byMode]

end Sys2Proof
end

