-- ==== Sys2Proof/Laws/Memory.lean ====
section
/-!
SUPPORT. The laws of the output buffer's memory: what a write reads back as, what it leaves alone, and that every
operation keeps the canonical form.
-/

namespace Sys2Proof.Machine

@[simp] theorem read_nil (a : Nat) : Memory.read [] a = none := rfl

theorem read_cons (k : Nat) (v : Byte) (m : Memory) (a : Nat) :
    Memory.read ((k, v) :: m) a = if k = a then some v else Memory.read m a := rfl

/-- What a write writes is read back. -/
theorem read_write_same (m : Memory) (a : Nat) (v : Byte) : Memory.read (Memory.write m a v) a = some v := by
  induction m with
  | nil => simp [Memory.write, read_cons]
  | cons c m ih =>
    obtain ⟨k, w⟩ := c
    unfold Memory.write
    split
    · simp [read_cons]
    · split
      · simp [read_cons, *]
      · rename_i h
        simp [read_cons, Ne.symm h, ih]

/-- A write leaves every other index alone. -/
theorem read_write_other (m : Memory) {a b : Nat} (v : Byte) (h : b ≠ a) :
    Memory.read (Memory.write m a v) b = Memory.read m b := by
  induction m with
  | nil => simp [Memory.write, read_cons, Ne.symm h]
  | cons c m ih =>
    obtain ⟨k, w⟩ := c
    unfold Memory.write
    split
    · simp [read_cons, Ne.symm h]
    · split
      · rename_i hk
        simp [read_cons, ← hk, Ne.symm h]
      · simp [read_cons, ih]

theorem risesFrom_le {lo lo' : Nat} {m : Memory} (h : lo' ≤ lo) (hm : Memory.risesFrom lo m = true) :
    Memory.risesFrom lo' m = true := by
  cases m with
  | nil => rfl
  | cons c m =>
    obtain ⟨k, w⟩ := c
    simp only [Memory.risesFrom, Bool.and_eq_true, decide_eq_true_eq] at hm ⊢
    exact ⟨by omega, hm.2⟩

theorem risesFrom_write {lo a : Nat} {m : Memory} (v : Byte) (ha : lo ≤ a) (hm : Memory.risesFrom lo m = true) :
    Memory.risesFrom lo (Memory.write m a v) = true := by
  induction m generalizing lo with
  | nil => simpa [Memory.write, Memory.risesFrom] using ha
  | cons c m ih =>
    obtain ⟨k, w⟩ := c
    simp only [Memory.risesFrom, Bool.and_eq_true, decide_eq_true_eq] at hm
    unfold Memory.write
    split
    · simp only [Memory.risesFrom, Bool.and_eq_true, decide_eq_true_eq]
      exact ⟨ha, by omega, hm.2⟩
    · split
      · simpa [Memory.risesFrom] using hm
      · simp only [Memory.risesFrom, Bool.and_eq_true, decide_eq_true_eq]
        exact ⟨hm.1, ih (by omega) hm.2⟩

/-- A write keeps the canonical form. -/
theorem wf_write {m : Memory} (a : Nat) (v : Byte) (hm : Memory.wf m = true) :
    Memory.wf (Memory.write m a v) = true :=
  risesFrom_write v (Nat.zero_le a) hm

theorem risesFrom_ofBytes (a : Nat) (bs : List Byte) : Memory.risesFrom a (Memory.ofBytes a bs) = true := by
  induction bs generalizing a with
  | nil => rfl
  | cons b bs ih => simp [Memory.ofBytes, Memory.risesFrom, ih]

/-- A memory made of a byte sequence is canonical. -/
theorem wf_ofBytes (a : Nat) (bs : List Byte) : Memory.wf (Memory.ofBytes a bs) = true :=
  risesFrom_le (Nat.zero_le a) (risesFrom_ofBytes a bs)

@[simp] theorem wf_nil : Memory.wf [] = true := rfl

theorem read_ofBytes_below {a b : Nat} (bs : List Byte) (h : b < a) :
    Memory.read (Memory.ofBytes a bs) b = none := by
  induction bs generalizing a with
  | nil => rfl
  | cons c bs ih =>
    have : a ≠ b := by omega
    simp [Memory.ofBytes, read_cons, this, ih (Nat.lt_succ_of_lt h)]

/-- A memory made of a byte sequence reads as that sequence. -/
theorem read_ofBytes (a i : Nat) (bs : List Byte) : Memory.read (Memory.ofBytes a bs) (a + i) = bs[i]? := by
  induction bs generalizing a i with
  | nil => simp [Memory.ofBytes]
  | cons c bs ih =>
    cases i with
    | zero => simp [Memory.ofBytes, read_cons]
    | succ i =>
      have h := ih (a + 1) i
      rw [show a + 1 + i = a + (i + 1) by omega] at h
      simp [Memory.ofBytes, read_cons, h]

/-- Reading a range answers the bytes exactly when each has a value. -/
theorem readRange_eq_some_iff (m : Memory) (a n : Nat) (bs : List Byte) :
    Memory.readRange m a n = some bs ↔
      bs.length = n ∧ ∀ i, i < n → Memory.read m (a + i) = bs[i]? := by
  induction n generalizing a bs with
  | zero =>
    simp [Memory.readRange]
  | succ n ih =>
    constructor
    · intro h
      unfold Memory.readRange at h
      split at h
      · rename_i b cs hb hcs
        obtain rfl : b :: cs = bs := by simpa using h
        obtain ⟨hl, hr⟩ := (ih (a + 1) cs).1 hcs
        refine ⟨by simp [hl], fun i hi => ?_⟩
        cases i with
        | zero => simpa using hb
        | succ i =>
          have := hr i (by omega)
          rw [show a + 1 + i = a + (i + 1) by omega] at this
          simpa using this
      · simp at h
    · rintro ⟨hl, hr⟩
      cases bs with
      | nil => simp at hl
      | cons b cs =>
        have h0 : Memory.read m a = some b := by simpa using hr 0 (by omega)
        have hcs : Memory.readRange m (a + 1) n = some cs := by
          refine (ih (a + 1) cs).2 ⟨by simpa using hl, fun i hi => ?_⟩
          have := hr (i + 1) (by omega)
          rw [show a + (i + 1) = a + 1 + i by omega] at this
          simpa using this
        simp [Memory.readRange, h0, hcs]

end Sys2Proof.Machine
end

