-- ==== Sys2Proof/Laws/Operands.lean ====
section
/-!
SUPPORT. The datapath functions and the ROMs in the forms later proofs cite.
-/

namespace Sys2Proof.Machine

/-- The adder as addition of 8-bit words. -/
theorem add8_eq (a b : Byte) : add8 a b = a + b := by
  apply BitVec.eq_of_toNat_eq
  simp [add8, BitVec.toNat_add]

/-- The subtractor as subtraction of 8-bit words. -/
theorem sub8_eq (a b : Byte) : sub8 a b = a - b := by
  apply BitVec.eq_of_toNat_eq
  have ha := a.isLt
  have hb := b.isLt
  unfold sub8
  split <;> simp only [BitVec.toNat_ofNat, BitVec.toNat_sub] <;> omega

/-- The key index steps inside 0..36. -/
theorem nextk_toNat {k : BitVec 6} (h : k.toNat ≤ 36) :
    (nextk k).toNat = if k.toNat = 36 then 0 else k.toNat + 1 := by
  unfold nextk
  split
  · rfl
  · rw [if_pos (by omega)]
    simp only [BitVec.toNat_ofNat]
    omega

/-- The header counter steps inside 1..123. -/
theorem hnext_toNat {h : BitVec 7} (hh : h.toNat ≤ 122) : (hnext h).toNat = h.toNat + 1 := by
  simp only [hnext, hh, if_true, BitVec.toNat_ofNat]
  omega

@[simp] theorem keyRom_length : keyRom.length = 37 := rfl

@[simp] theorem headerRom_length : headerRom.length = 123 := rfl

/-- Inside 0..36 a key byte is the ROM's. -/
theorem keyAt_eq {k : BitVec 6} (h : k.toNat ≤ 36) : keyRom[k.toNat]? = some (keyAt k) := by
  have : k.toNat < keyRom.length := by simp; omega
  simp [keyAt, List.getElem?_eq_getElem this]

end Sys2Proof.Machine
end

