-- ==== Sys2Proof/Laws/State.lean ====
section
/-!
SUPPORT. Each named update of the state, field by field, so that no later proof unfolds a record update.
-/

namespace Sys2Proof.Machine

@[simp] theorem appendByte_op (s : State) (v : Byte) : (appendByte s v).op = s.op := rfl
@[simp] theorem appendByte_phase (s : State) (v : Byte) : (appendByte s v).phase = s.phase := rfl
@[simp] theorem appendByte_hcnt (s : State) (v : Byte) : (appendByte s v).hcnt = s.hcnt := rfl
@[simp] theorem appendByte_kidx (s : State) (v : Byte) : (appendByte s v).kidx = s.kidx := rfl
@[simp] theorem appendByte_olen (s : State) (v : Byte) : (appendByte s v).olen = s.olen + 1 := rfl
@[simp] theorem appendByte_errcause (s : State) (v : Byte) : (appendByte s v).errcause = s.errcause := rfl
@[simp] theorem appendByte_obuf (s : State) (v : Byte) : (appendByte s v).obuf = Memory.write s.obuf s.olen v := rfl
@[simp] theorem appendByte_offers (s : State) (v : Byte) : (appendByte s v).offers = s.offers := rfl
@[simp] theorem appendByte_resPort (s : State) (v : Byte) : (appendByte s v).resPort = s.resPort := rfl
@[simp] theorem appendByte_draws (s : State) (v : Byte) : (appendByte s v).draws = s.draws := rfl

@[simp] theorem emptyBuffer_op (s : State) : (emptyBuffer s).op = s.op := rfl
@[simp] theorem emptyBuffer_phase (s : State) : (emptyBuffer s).phase = s.phase := rfl
@[simp] theorem emptyBuffer_hcnt (s : State) : (emptyBuffer s).hcnt = s.hcnt := rfl
@[simp] theorem emptyBuffer_kidx (s : State) : (emptyBuffer s).kidx = s.kidx := rfl
@[simp] theorem emptyBuffer_olen (s : State) : (emptyBuffer s).olen = 0 := rfl
@[simp] theorem emptyBuffer_errcause (s : State) : (emptyBuffer s).errcause = s.errcause := rfl
@[simp] theorem emptyBuffer_obuf (s : State) : (emptyBuffer s).obuf = [] := rfl
@[simp] theorem emptyBuffer_offers (s : State) : (emptyBuffer s).offers = s.offers := rfl
@[simp] theorem emptyBuffer_resPort (s : State) : (emptyBuffer s).resPort = s.resPort := rfl
@[simp] theorem emptyBuffer_draws (s : State) : (emptyBuffer s).draws = s.draws := rfl

@[simp] theorem loadHeader_op (s : State) : (loadHeader s).op = s.op := rfl
@[simp] theorem loadHeader_phase (s : State) : (loadHeader s).phase = s.phase := rfl
@[simp] theorem loadHeader_hcnt (s : State) : (loadHeader s).hcnt = s.hcnt := rfl
@[simp] theorem loadHeader_kidx (s : State) : (loadHeader s).kidx = s.kidx := rfl
@[simp] theorem loadHeader_olen (s : State) : (loadHeader s).olen = 123 := rfl
@[simp] theorem loadHeader_errcause (s : State) : (loadHeader s).errcause = s.errcause := rfl
@[simp] theorem loadHeader_obuf (s : State) : (loadHeader s).obuf = Memory.ofBytes 0 headerRom := rfl
@[simp] theorem loadHeader_offers (s : State) : (loadHeader s).offers = s.offers := rfl
@[simp] theorem loadHeader_resPort (s : State) : (loadHeader s).resPort = s.resPort := rfl
@[simp] theorem loadHeader_draws (s : State) : (loadHeader s).draws = s.draws := rfl

@[simp] theorem emitContent_op (s : State) (v : Byte) : (emitContent s v).op = s.op := rfl
@[simp] theorem emitContent_phase (s : State) (v : Byte) : (emitContent s v).phase = s.phase := rfl
@[simp] theorem emitContent_hcnt (s : State) (v : Byte) : (emitContent s v).hcnt = s.hcnt := rfl
@[simp] theorem emitContent_kidx (s : State) (v : Byte) : (emitContent s v).kidx = nextk s.kidx := rfl
@[simp] theorem emitContent_olen (s : State) (v : Byte) : (emitContent s v).olen = s.olen + 1 := rfl
@[simp] theorem emitContent_errcause (s : State) (v : Byte) : (emitContent s v).errcause = s.errcause := rfl
@[simp] theorem emitContent_obuf (s : State) (v : Byte) : (emitContent s v).obuf = Memory.write s.obuf s.olen v := rfl
@[simp] theorem emitContent_offers (s : State) (v : Byte) : (emitContent s v).offers = s.offers := rfl
@[simp] theorem emitContent_resPort (s : State) (v : Byte) : (emitContent s v).resPort = s.resPort := rfl
@[simp] theorem emitContent_draws (s : State) (v : Byte) : (emitContent s v).draws = s.draws := rfl

@[simp] theorem startEncode_op (s : State) : (startEncode s).op = .enc := rfl
@[simp] theorem startEncode_phase (s : State) : (startEncode s).phase = .body := rfl
@[simp] theorem startEncode_hcnt (s : State) : (startEncode s).hcnt = 123 := rfl
@[simp] theorem startEncode_kidx (s : State) : (startEncode s).kidx = 0 := rfl
@[simp] theorem startEncode_olen (s : State) : (startEncode s).olen = 123 := rfl
@[simp] theorem startEncode_errcause (s : State) : (startEncode s).errcause = s.errcause := rfl
@[simp] theorem startEncode_obuf (s : State) : (startEncode s).obuf = Memory.ofBytes 0 headerRom := rfl
@[simp] theorem startEncode_offers (s : State) : (startEncode s).offers = s.offers := rfl
@[simp] theorem startEncode_resPort (s : State) : (startEncode s).resPort = s.resPort := rfl
@[simp] theorem startEncode_draws (s : State) : (startEncode s).draws = s.draws := rfl

@[simp] theorem startDecode_op (s : State) : (startDecode s).op = .dec := rfl
@[simp] theorem startDecode_phase (s : State) : (startDecode s).phase = .skip := rfl
@[simp] theorem startDecode_hcnt (s : State) : (startDecode s).hcnt = 0 := rfl
@[simp] theorem startDecode_kidx (s : State) : (startDecode s).kidx = 0 := rfl
@[simp] theorem startDecode_olen (s : State) : (startDecode s).olen = 0 := rfl
@[simp] theorem startDecode_errcause (s : State) : (startDecode s).errcause = s.errcause := rfl
@[simp] theorem startDecode_obuf (s : State) : (startDecode s).obuf = [] := rfl
@[simp] theorem startDecode_offers (s : State) : (startDecode s).offers = s.offers := rfl
@[simp] theorem startDecode_resPort (s : State) : (startDecode s).resPort = s.resPort := rfl
@[simp] theorem startDecode_draws (s : State) : (startDecode s).draws = s.draws := rfl

@[simp] theorem endOfInput_op (s : State) : (endOfInput s).op = s.op := rfl
@[simp] theorem endOfInput_phase (s : State) : (endOfInput s).phase = .doneOk := rfl
@[simp] theorem endOfInput_hcnt (s : State) : (endOfInput s).hcnt = s.hcnt := rfl
@[simp] theorem endOfInput_kidx (s : State) : (endOfInput s).kidx = s.kidx := rfl
@[simp] theorem endOfInput_olen (s : State) : (endOfInput s).olen = s.olen := rfl
@[simp] theorem endOfInput_errcause (s : State) : (endOfInput s).errcause = s.errcause := rfl
@[simp] theorem endOfInput_obuf (s : State) : (endOfInput s).obuf = s.obuf := rfl
@[simp] theorem endOfInput_offers (s : State) : (endOfInput s).offers = s.offers := rfl
@[simp] theorem endOfInput_resPort (s : State) : (endOfInput s).resPort = s.resPort := rfl
@[simp] theorem endOfInput_draws (s : State) : (endOfInput s).draws = s.draws := rfl

@[simp] theorem raiseReadError_op (c : Byte) (s : State) : (raiseReadError c s).op = s.op := rfl
@[simp] theorem raiseReadError_phase (c : Byte) (s : State) : (raiseReadError c s).phase = .doneErr := rfl
@[simp] theorem raiseReadError_hcnt (c : Byte) (s : State) : (raiseReadError c s).hcnt = s.hcnt := rfl
@[simp] theorem raiseReadError_kidx (c : Byte) (s : State) : (raiseReadError c s).kidx = s.kidx := rfl
@[simp] theorem raiseReadError_olen (c : Byte) (s : State) : (raiseReadError c s).olen = 0 := rfl
@[simp] theorem raiseReadError_errcause (c : Byte) (s : State) : (raiseReadError c s).errcause = c := rfl
@[simp] theorem raiseReadError_obuf (c : Byte) (s : State) : (raiseReadError c s).obuf = [] := rfl
@[simp] theorem raiseReadError_offers (c : Byte) (s : State) : (raiseReadError c s).offers = s.offers := rfl
@[simp] theorem raiseReadError_resPort (c : Byte) (s : State) : (raiseReadError c s).resPort = s.resPort := rfl
@[simp] theorem raiseReadError_draws (c : Byte) (s : State) : (raiseReadError c s).draws = s.draws := rfl

@[simp] theorem resetEvent_op (s : State) : (resetEvent s).op = Config.resetOp s.draws := rfl
@[simp] theorem resetEvent_phase (s : State) : (resetEvent s).phase = .idle := rfl
@[simp] theorem resetEvent_hcnt (s : State) : (resetEvent s).hcnt = Config.resetHcnt s.draws := rfl
@[simp] theorem resetEvent_kidx (s : State) : (resetEvent s).kidx = Config.resetKidx s.draws := rfl
@[simp] theorem resetEvent_olen (s : State) : (resetEvent s).olen = Config.resetOlen s.draws := rfl
@[simp] theorem resetEvent_errcause (s : State) : (resetEvent s).errcause = Config.resetErrcause s.draws := rfl
@[simp] theorem resetEvent_obuf (s : State) : (resetEvent s).obuf = [] := rfl
@[simp] theorem resetEvent_offers (s : State) : (resetEvent s).offers = s.offers := rfl
@[simp] theorem resetEvent_resPort (s : State) : (resetEvent s).resPort = s.resPort := rfl
@[simp] theorem resetEvent_draws (s : State) : (resetEvent s).draws = s.draws + 1 := rfl

@[simp] theorem showResult_op (s : State) (r : ResRecord) : (showResult s r).op = s.op := rfl
@[simp] theorem showResult_phase (s : State) (r : ResRecord) : (showResult s r).phase = s.phase := rfl
@[simp] theorem showResult_hcnt (s : State) (r : ResRecord) : (showResult s r).hcnt = s.hcnt := rfl
@[simp] theorem showResult_kidx (s : State) (r : ResRecord) : (showResult s r).kidx = s.kidx := rfl
@[simp] theorem showResult_olen (s : State) (r : ResRecord) : (showResult s r).olen = s.olen := rfl
@[simp] theorem showResult_errcause (s : State) (r : ResRecord) : (showResult s r).errcause = s.errcause := rfl
@[simp] theorem showResult_obuf (s : State) (r : ResRecord) : (showResult s r).obuf = s.obuf := rfl
@[simp] theorem showResult_offers (s : State) (r : ResRecord) : (showResult s r).offers = s.offers := rfl
@[simp] theorem showResult_resPort (s : State) (r : ResRecord) : (showResult s r).resPort = some r := rfl
@[simp] theorem showResult_draws (s : State) (r : ResRecord) : (showResult s r).draws = s.draws := rfl

section
variable (s : State)

@[simp] theorem skipHeaderByte_op : (skipHeaderByte s).op = s.op := by unfold skipHeaderByte; split <;> rfl
@[simp] theorem skipHeaderByte_kidx : (skipHeaderByte s).kidx = s.kidx := by unfold skipHeaderByte; split <;> rfl
@[simp] theorem skipHeaderByte_olen : (skipHeaderByte s).olen = s.olen := by unfold skipHeaderByte; split <;> rfl
@[simp] theorem skipHeaderByte_errcause : (skipHeaderByte s).errcause = s.errcause := by
  unfold skipHeaderByte; split <;> rfl
@[simp] theorem skipHeaderByte_obuf : (skipHeaderByte s).obuf = s.obuf := by unfold skipHeaderByte; split <;> rfl
@[simp] theorem skipHeaderByte_offers : (skipHeaderByte s).offers = s.offers := by
  unfold skipHeaderByte; split <;> rfl
@[simp] theorem skipHeaderByte_resPort : (skipHeaderByte s).resPort = s.resPort := by
  unfold skipHeaderByte; split <;> rfl
@[simp] theorem skipHeaderByte_draws : (skipHeaderByte s).draws = s.draws := by unfold skipHeaderByte; split <;> rfl

/-- The 123rd discarded byte opens the body (R101). -/
theorem skipHeaderByte_last {s : State} (h : s.hcnt = 122) :
    skipHeaderByte s = { s with hcnt := 123, phase := .body } :=
  if_pos h

/-- Any other discarded byte only counts (R101). -/
theorem skipHeaderByte_counts {s : State} (h : s.hcnt ≠ 122) : skipHeaderByte s = { s with hcnt := hnext s.hcnt } :=
  if_neg h

end

end Sys2Proof.Machine
end

