-- ==== Sys2Proof/Laws/Exec.lean ====
section
/-!
SUPPORT. What each shared operation can answer, said once: acceptance, the choice of the next transfer, a step, and
one inversion lemma over all instructions.
-/

namespace Sys2Proof.Machine

/-- The invariants do not depend on what is offered. -/
theorem inv_withOffers {s : State} (os : List Offer) (h : s.Inv) : ({ s with offers := os } : State).Inv :=
  ⟨⟨h.buffer.canonical, h.buffer.belowLen⟩, h.inSkip, h.inBody, h.inDoneErr, h.legalCounters, h.headerEmitted,
    h.legalCode, h.filled⟩

/-- A phase is busy exactly when it is none of the three that accept a command. -/
theorem busy_eq_false_iff (s : State) : s.phase.busy = false ↔ s.notBusy := by
  cases h : s.phase <;> simp [State.notBusy, Phase.busy, h]

theorem acceptCommand_next_iff (s t u : State) : acceptCommand s t = .next u ↔ s.notBusy ∧ u = t := by
  rw [← busy_eq_false_iff]
  unfold acceptCommand
  cases s.phase.busy <;> simp [eq_comm]

theorem acceptToken_next_iff (op : Op) (phase : Phase) (s t u : State) (hp : phase.busy = true) :
    acceptToken op phase s t = .next u ↔ s.op = op ∧ s.phase = phase ∧ u = t := by
  unfold acceptToken
  split
  · rename_i h
    constructor
    · simp
    · rintro ⟨-, rfl, -⟩
      simp [hp] at h
  · split
    · rename_i h
      simp [h.1, h.2, eq_comm]
    · rename_i h
      simp only [reduceCtorEq, false_iff]
      rintro ⟨h1, h2, -⟩
      exact h ⟨h1, h2⟩

/-- Everything an instruction can do when it answers a next state: the state it was in, and the state it leaves. -/
theorem exec_next_cases {i : Instr} {s t : State} (h : exec i s = .next t) :
    (i = .enc ∧ s.notBusy ∧ t = startEncode s) ∨
    (i = .dec ∧ s.notBusy ∧ t = startDecode s) ∨
    (∃ b, i = .encData b ∧ s.op = .enc ∧ s.phase = .body ∧ t = emitContent s (add8 b (keyAt s.kidx))) ∨
    (∃ b, i = .decData b ∧ s.op = .dec ∧ s.phase = .body ∧ t = emitContent s (sub8 b (keyAt s.kidx))) ∨
    (∃ p, i = .decSkipData p ∧ s.op = .dec ∧ s.phase = .skip ∧ t = skipHeaderByte s) ∨
    (endsInput i = true ∧ tokenMode i = some (s.op, s.phase) ∧ t = endOfInput s) ∨
    (∃ c, (i = .encErr c ∨ i = .decSkipErr c ∨ i = .decErr c) ∧ tokenMode i = some (s.op, s.phase) ∧
      t = raiseReadError c s) ∨
    (i = .result ∧ s.phase = .doneOk ∧
      ∃ data, Memory.readRange s.obuf 0 s.olen = some data ∧ t = showResult s (okRecord s data)) ∨
    (i = .result ∧ s.phase = .doneErr ∧ t = showResult s (errRecord s)) ∨
    (i = .reset ∧ t = resetEvent s) := by
  have hb : Phase.body.busy = true := rfl
  have hs : Phase.skip.busy = true := rfl
  cases i with
  | enc => exact .inl ⟨rfl, (acceptCommand_next_iff s _ t).1 h⟩
  | dec => exact .inr (.inl ⟨rfl, (acceptCommand_next_iff s _ t).1 h⟩)
  | encData b =>
    exact .inr (.inr (.inl ⟨b, rfl, (acceptToken_next_iff _ _ s _ t hb).1 h⟩))
  | decData b =>
    exact .inr (.inr (.inr (.inl ⟨b, rfl, (acceptToken_next_iff _ _ s _ t hb).1 h⟩)))
  | decSkipData p =>
    exact .inr (.inr (.inr (.inr (.inl ⟨p, rfl, (acceptToken_next_iff _ _ s _ t hs).1 h⟩))))
  | encEnd p =>
    obtain ⟨h1, h2, h3⟩ := (acceptToken_next_iff _ _ s _ t hb).1 h
    exact .inr (.inr (.inr (.inr (.inr (.inl ⟨rfl, by simp [tokenMode, h1, h2], h3⟩)))))
  | decSkipEnd p =>
    obtain ⟨h1, h2, h3⟩ := (acceptToken_next_iff _ _ s _ t hs).1 h
    exact .inr (.inr (.inr (.inr (.inr (.inl ⟨rfl, by simp [tokenMode, h1, h2], h3⟩)))))
  | decEnd p =>
    obtain ⟨h1, h2, h3⟩ := (acceptToken_next_iff _ _ s _ t hb).1 h
    exact .inr (.inr (.inr (.inr (.inr (.inl ⟨rfl, by simp [tokenMode, h1, h2], h3⟩)))))
  | encErr c =>
    obtain ⟨h1, h2, h3⟩ := (acceptToken_next_iff _ _ s _ t hb).1 h
    exact .inr (.inr (.inr (.inr (.inr (.inr (.inl ⟨c, by simp, by simp [tokenMode, h1, h2], h3⟩))))))
  | decSkipErr c =>
    obtain ⟨h1, h2, h3⟩ := (acceptToken_next_iff _ _ s _ t hs).1 h
    exact .inr (.inr (.inr (.inr (.inr (.inr (.inl ⟨c, by simp, by simp [tokenMode, h1, h2], h3⟩))))))
  | decErr c =>
    obtain ⟨h1, h2, h3⟩ := (acceptToken_next_iff _ _ s _ t hb).1 h
    exact .inr (.inr (.inr (.inr (.inr (.inr (.inl ⟨c, by simp, by simp [tokenMode, h1, h2], h3⟩))))))
  | tokReserved p => cases h
  | result =>
    simp only [exec, execResult] at h
    split at h
    · split at h
      · rename_i hp _ data hd
        obtain rfl := Host.Outcome.next.inj h
        exact .inr (.inr (.inr (.inr (.inr (.inr (.inr (.inl ⟨rfl, hp, data, hd, rfl⟩)))))))
      · cases h
    · rename_i hp
      obtain rfl := Host.Outcome.next.inj h
      exact .inr (.inr (.inr (.inr (.inr (.inr (.inr (.inr (.inl ⟨rfl, hp, rfl⟩))))))))
    all_goals cases h
  | reset =>
    obtain rfl := Host.Outcome.next.inj h
    exact .inr (.inr (.inr (.inr (.inr (.inr (.inr (.inr (.inr ⟨rfl, rfl⟩))))))))

/-- A token operation's mode is one of the three busy modes of R53. -/
theorem busyMode_of_tokenMode {i : Instr} {s : State} (h : tokenMode i = some (s.op, s.phase)) : s.busyMode := by
  cases i <;> simp_all [tokenMode, State.busyMode, eq_comm]

/-- No instruction touches what is offered. -/
theorem exec_offers {i : Instr} {s t : State} (h : exec i s = .next t) : t.offers = s.offers := by
  obtain ⟨-, -, rfl⟩ | ⟨-, -, rfl⟩ | ⟨b, -, -, -, rfl⟩ | ⟨b, -, -, -, rfl⟩ | ⟨p, -, -, -, rfl⟩ | ⟨-, -, rfl⟩ |
    ⟨c, -, -, rfl⟩ | ⟨-, -, data, -, rfl⟩ | ⟨-, -, rfl⟩ | ⟨-, rfl⟩ := exec_next_cases h <;> simp

/-- The transfer chosen is an offer at an open port, and what stands before it waits at closed ports. -/
theorem takeOpen_eq_some_iff (phase : Phase) (os : List Offer) (o : Offer) (rest : List Offer) :
    takeOpen phase os = some (o, rest) ↔
      ∃ pre post, os = pre ++ o :: post ∧ rest = pre ++ post ∧ portOpen phase o = true ∧
        ∀ x ∈ pre, portOpen phase x = false := by
  induction os generalizing rest with
  | nil => simp [takeOpen]
  | cons c os ih =>
    by_cases hc : portOpen phase c = true
    · constructor
      · intro h
        simp only [takeOpen, hc, if_true, Option.some.injEq, Prod.mk.injEq] at h
        obtain ⟨rfl, rfl⟩ := h
        exact ⟨[], os, rfl, rfl, hc, by simp⟩
      · rintro ⟨pre, post, hos, rfl, ho, hpre⟩
        cases pre with
        | nil =>
          obtain ⟨rfl, rfl⟩ : c = o ∧ os = post := by simpa using hos
          simp [takeOpen, hc]
        | cons d pre =>
          obtain ⟨rfl, -⟩ : c = d ∧ _ := by simpa using hos
          simp [hpre c (by simp)] at hc
    · constructor
      · intro h
        simp only [takeOpen, hc, Bool.false_eq_true, if_false] at h
        split at h
        · cases h
        · rename_i y r hy
          obtain ⟨rfl, rfl⟩ : y = o ∧ c :: r = rest := by simpa using h
          obtain ⟨pre, post, rfl, rfl, ho, hpre⟩ := (ih r).1 hy
          exact ⟨c :: pre, post, rfl, rfl, ho, by simpa [hc] using hpre⟩
      · rintro ⟨pre, post, hos, rfl, ho, hpre⟩
        cases pre with
        | nil =>
          obtain ⟨rfl, -⟩ : c = o ∧ os = post := by simpa using hos
          exact absurd ho hc
        | cons d pre =>
          obtain ⟨rfl, rfl⟩ : c = d ∧ os = pre ++ o :: post := by simpa using hos
          have := (ih (pre ++ post)).2 ⟨pre, post, rfl, rfl, ho, fun x hx => hpre x (by simp [hx])⟩
          simp [takeOpen, hc, this]

/-- Nothing is chosen exactly when every offer waits at a closed port. -/
theorem takeOpen_eq_none_iff (phase : Phase) (os : List Offer) :
    takeOpen phase os = none ↔ ∀ o ∈ os, portOpen phase o = false := by
  induction os with
  | nil => simp [takeOpen]
  | cons c os ih =>
    by_cases hc : portOpen phase c = true
    · simp [takeOpen, hc]
    · simp only [takeOpen, hc, Bool.false_eq_true, if_false]
      split
      · rename_i h
        simpa [hc] using ih.1 h
      · rename_i y r h
        simp only [reduceCtorEq, List.mem_cons, forall_eq_or_imp, false_iff, not_and]
        intro _ hall
        simp [ih.2 hall] at h

/-- A pending reset is the next transfer. -/
theorem nextTransfer_of_reset {phase : Phase} {os : List Offer} (h : Offer.reset ∈ os) :
    nextTransfer phase os = some (.reset, os.erase .reset) := if_pos h

/-- Without a pending reset the next transfer is the oldest offer at an open port. -/
theorem nextTransfer_of_no_reset {phase : Phase} {os : List Offer} (h : Offer.reset ∉ os) :
    nextTransfer phase os = takeOpen phase os := if_neg h

/-- The next transfer is an offer at an open port, the others stay in their order, and unless it is a reset there is no
reset and what stands before it waits at closed ports. -/
theorem nextTransfer_some {phase : Phase} {os : List Offer} {o : Offer} {rest : List Offer}
    (h : nextTransfer phase os = some (o, rest)) :
    ∃ pre post, os = pre ++ o :: post ∧ rest = pre ++ post ∧ portOpen phase o = true ∧
      (o = .reset ∨ Offer.reset ∉ os ∧ ∀ x ∈ pre, portOpen phase x = false) := by
  by_cases hr : Offer.reset ∈ os
  · rw [nextTransfer_of_reset hr] at h
    obtain ⟨rfl, rfl⟩ : Offer.reset = o ∧ os.erase .reset = rest := by simpa using h
    obtain ⟨pre, post, -, h1, h2⟩ := List.exists_erase_eq hr
    exact ⟨pre, post, h1, h2, rfl, .inl rfl⟩
  · rw [nextTransfer_of_no_reset hr] at h
    obtain ⟨pre, post, h1, h2, h3, h4⟩ := (takeOpen_eq_some_iff _ _ _ _).1 h
    exact ⟨pre, post, h1, h2, h3, .inr ⟨hr, h4⟩⟩

/-- An offer at an open port, with nothing but closed ports before it, is the next transfer if no reset stands behind it
or it is a reset itself. -/
theorem nextTransfer_of_open {phase : Phase} {pre post : List Offer} {o : Offer} (hopen : portOpen phase o = true)
    (hpre : ∀ x ∈ pre, portOpen phase x = false) (hr : o = .reset ∨ Offer.reset ∉ post) :
    nextTransfer phase (pre ++ o :: post) = some (o, pre ++ post) := by
  have hp : Offer.reset ∉ pre := fun h => by simpa [portOpen] using hpre _ h
  by_cases ho : o = .reset
  · subst ho
    rw [nextTransfer_of_reset (by simp), List.erase_append_right _ hp]
    simp
  · rw [nextTransfer_of_no_reset (by simpa [hp, Ne.symm ho] using hr.resolve_left ho)]
    exact (takeOpen_eq_some_iff _ _ _ _).2 ⟨pre, post, rfl, rfl, hopen, hpre⟩

/-- There is no next transfer exactly when every offer waits at a closed port. -/
theorem nextTransfer_eq_none_iff (phase : Phase) (os : List Offer) :
    nextTransfer phase os = none ↔ ∀ o ∈ os, portOpen phase o = false := by
  by_cases hr : Offer.reset ∈ os
  · rw [nextTransfer_of_reset hr]
    simpa using ⟨.reset, hr, rfl⟩
  · rw [nextTransfer_of_no_reset hr, takeOpen_eq_none_iff]

/-- Everything a step can do when it answers a next state. -/
theorem step_next_cases {s t : State} (h : step s = .next t) :
    ∃ o rest i, nextTransfer s.phase s.offers = some (o, rest) ∧ decode s.op s.phase o = .ok i ∧
      exec i { s with offers := rest } = .next t := by
  unfold step at h
  split at h
  · cases h
  · rename_i o rest htake
    split at h
    · cases h
    · rename_i i hdec
      exact ⟨o, rest, i, htake, hdec, h⟩

/-- The transfer at the head of the offers, at an open port, with no reset behind it, is the one a step makes. -/
theorem step_head {s : State} {o : Offer} {rest : List Offer} {i : Instr} (ho : s.offers = o :: rest)
    (hr : Offer.reset ∉ rest) (hopen : portOpen s.phase o = true) (hdec : decode s.op s.phase o = .ok i) :
    step s = exec i { s with offers := rest } := by
  have h : nextTransfer s.phase s.offers = some (o, rest) := by
    rw [ho]
    exact nextTransfer_of_open (pre := []) hopen (by simp) (.inr hr)
  simp [step, h, hdec]

/-- With a reset pending, the step is the reset event and the other offers stay. -/
theorem step_reset {s : State} (h : Offer.reset ∈ s.offers) :
    step s = .next (resetEvent { s with offers := s.offers.erase .reset }) := by
  simp [step, nextTransfer_of_reset h, decode, exec, execReset]

end Sys2Proof.Machine
end

