-- ==== Sys2Proof/Laws/PerInstr.lean ====
section
/-!
SUPPORT. One statement per instruction about its word: the transfer the encoder gives it carries a word that matches
its row of spec/opcode_table.json (`word & mask = match`), and a row without a word carries none.
-/

namespace Sys2Proof.Laws.TableMatch

/-- The `mask` and `match` of a row of spec/opcode_table.json, for the rows that have a bit pattern. -/
def row : Instr → Option (Nat × Nat)
  | .enc => some (0x1, 0x0)
  | .dec => some (0x1, 0x1)
  | .encData _ | .decSkipData _ | .decData _ => some (0x300, 0x000)
  | .encEnd _ | .decSkipEnd _ | .decEnd _ => some (0x300, 0x100)
  | .encErr _ | .decSkipErr _ | .decErr _ => some (0x300, 0x200)
  | .tokReserved _ => some (0x300, 0x300)
  | .result | .reset => none

/-- The number a transfer's word is, if it carries one. -/
def wordOf : Offer → Option Nat
  | .cmd w => some w.toNat
  | .tok w => some w.toNat
  | .result | .reset => none

/-- The instruction's word matches its row. -/
def Statement (i : Instr) : Prop :=
  (wordOf (encode i)).map (fun w => w &&& ((row i).map Prod.fst).getD 0) = (row i).map Prod.snd

/-- The kind bits of a token word, as the table's mask takes them. -/
theorem tokWord_mask (k : TokKind) (p : Byte) :
    (tokWord k p).toNat &&& 0x300 = (tokKindCode k).toNat * 256 := by
  cases k <;> revert p <;> decide +kernel

theorem enc : Statement .enc := by unfold Statement; decide

theorem dec : Statement .dec := by unfold Statement; decide

theorem encData (b : Byte) : Statement (.encData b) := congrArg some (tokWord_mask .data b)

theorem encEnd (p : Byte) : Statement (.encEnd p) := congrArg some (tokWord_mask .endOfInput p)

theorem encErr (c : Byte) : Statement (.encErr c) := congrArg some (tokWord_mask .err c)

theorem decSkipData (p : Byte) : Statement (.decSkipData p) := congrArg some (tokWord_mask .data p)

theorem decSkipEnd (p : Byte) : Statement (.decSkipEnd p) := congrArg some (tokWord_mask .endOfInput p)

theorem decSkipErr (c : Byte) : Statement (.decSkipErr c) := congrArg some (tokWord_mask .err c)

theorem decData (b : Byte) : Statement (.decData b) := congrArg some (tokWord_mask .data b)

theorem decEnd (p : Byte) : Statement (.decEnd p) := congrArg some (tokWord_mask .endOfInput p)

theorem decErr (c : Byte) : Statement (.decErr c) := congrArg some (tokWord_mask .err c)

theorem tokReserved (p : Byte) : Statement (.tokReserved p) := congrArg some (tokWord_mask .reserved p)

theorem result : Statement .result := rfl

theorem reset : Statement .reset := rfl

end Sys2Proof.Laws.TableMatch
end

