-- ==== Sys2Proof/Laws/Rom.lean ====
section
/-!
SUPPORT. The header image of the output buffer, byte by byte.
-/

namespace Sys2Proof.Machine

/-- The buffer an `ENC` loads reads as the header ROM, and as nothing from index 123 upward. -/
theorem read_headerImage (a : Nat) : Memory.read (Memory.ofBytes 0 headerRom) a = headerRom[a]? := by
  simpa using read_ofBytes 0 a headerRom

end Sys2Proof.Machine
end

