-- ==== Sys2Proof/Tests/Slice0.lean ====
section
/-!
SUPPORT. The model's own tests: words written out from the formats of R51 and R52, the spec's worked examples, and for
each statement with hypotheses a named state and operands that meet them.
-/

namespace Sys2Proof.Tests

open Sys2Proof.Machine

/-! ### Small states -/

/-- After `RESET`, `ENC` (P1 step 1). -/
def encBody : State := startEncode State.reset

/-- After `RESET`, `DEC` (P3 step 1). -/
def decSkip : State := startDecode State.reset

/-- One byte short of the body (V9, n = 122). -/
def decLast : State := { decSkip with hcnt := 122 }

/-- After `DEC` and 123 skipped bytes (V9, n = 123). -/
def decBody : State := { decSkip with hcnt := 123, phase := .body }

/-- After `DEC, DH, D AB, END` (R105's example). -/
def decDone : State := { decBody with kidx := 1, olen := 1, obuf := [(0, 0x3C)], phase := .doneOk }

/-- After `ENC, ERR 05` (V13). -/
def encFailed : State := raiseReadError 0x05 encBody

/-- The state an instruction leaves. -/
def after (i : Instr) (s : State) : Option State := nextState? (exec i s)

/-! ### Decoding: a word of every row, bit by bit (R51, R52, R53) -/

theorem test_decode_enc : decode .enc .idle (.cmd 0b0#1) = .ok .enc := by decide
theorem test_decode_dec : decode .enc .idle (.cmd 0b1#1) = .ok .dec := by decide
theorem test_decode_encData : decode .enc .body (.tok 0b0000111100#10) = .ok (.encData 0x3C) := by decide
theorem test_decode_encEnd : decode .enc .body (.tok 0b0100000000#10) = .ok (.encEnd 0) := by decide
theorem test_decode_encErr : decode .enc .body (.tok 0b1000000101#10) = .ok (.encErr 5) := by decide
theorem test_decode_decSkipData : decode .dec .skip (.tok 0b0001010100#10) = .ok (.decSkipData 0x54) := by decide
theorem test_decode_decSkipEnd : decode .dec .skip (.tok 0b0111111111#10) = .ok (.decSkipEnd 0xFF) := by decide
theorem test_decode_decSkipErr : decode .dec .skip (.tok 0b1000000111#10) = .ok (.decSkipErr 7) := by decide
theorem test_decode_decData : decode .dec .body (.tok 0b0010101011#10) = .ok (.decData 0xAB) := by decide
theorem test_decode_decEnd : decode .dec .body (.tok 0b0100000001#10) = .ok (.decEnd 1) := by decide
theorem test_decode_decErr : decode .dec .body (.tok 0b1000001001#10) = .ok (.decErr 9) := by decide
theorem test_decode_tokReserved : decode .enc .body (.tok 0b1111111111#10) = .ok (.tokReserved 0xFF) := by decide
theorem test_decode_result : decode .enc .doneOk .result = .ok .result := by decide
theorem test_decode_reset : decode .enc .body .reset = .ok .reset := by decide
/-- A token outside a busy phase stands for nothing (R53). -/
theorem test_decode_not_busy : decode .enc .idle (.tok 0x041) = .error .tokenWhileNotBusy := by decide
/-- The mode R53 calls unreachable. -/
theorem test_decode_unreachable : decode .enc .skip (.tok 0x041) = .error .unreachableMode := by decide
/-- `D 48` is `TOK 048`, `END` is `TOK 100`, `ERR 05` is `TOK 205` (P1, P4). -/
theorem test_encode_words : encode (.encData 0x48) = .tok 0x048 ∧ encode (.encEnd 0) = .tok 0x100 ∧
    encode (.encErr 5) = .tok 0x205 ∧ encode .dec = .cmd 1 := by decide
theorem test_table_words : decodeTableWord 8 0 = some .enc ∧ decodeTableWord 8 1 = some .dec ∧
    decodeTableWord 16 0x05 = some (.encData 5) ∧ decodeTableWord 16 0x300 = some (.tokReserved 0) ∧
    decodeTableWord 8 2 = none ∧ decodeTableWord 16 0x400 = none ∧ decodeTableWord 24 0 = none := by decide

/-! ### Well-formedness smoke: the one check refuses its ill-formed term (R56) -/

theorem test_wellFormed_refuses_reserved : (Instr.tokReserved 0xFF).wellFormed = false := by decide
theorem test_wellFormed_accepts : (Instr.encEnd 0xFF).wellFormed = true ∧ Instr.reset.wellFormed = true := by decide

/-! ### The ROMs, the datapath and the streams (R31, R32, V1, V2, V7 to V12) -/

theorem test_key_literal : keyRom.map BitVec.toNat =
    ['o', 'd', 'B', 'e', 'a', 'r', 'B', 'e', 'c', 'a', 'u', 's', 'e', 'H', 'e', 'I', 's', 'V', 'e', 'r', 'y', 'G',
      'o', 'o', 'd', 'S', 'i', 'u', 'H', 'u', 'n', 'g', 'I', 's', 'A', 'G', 'o'].map Char.toNat := by decide
theorem test_rom_sums : (keyRom.map BitVec.toNat).sum = 3603 ∧ (headerRom.map BitVec.toNat).sum = 11055 := by decide
theorem test_add8 : add8 0x3C 0x6F = 0xAB ∧ add8 0xFF 0x01 = 0 ∧ add8 0x7F 0x01 = 0x80 := by decide
theorem test_sub8 : sub8 0x00 0x01 = 0xFF ∧ sub8 0x91 0x6F = 0x22 ∧ sub8 0x00 0x80 = 0x80 := by decide
theorem test_nextk : nextk 0 = 1 ∧ nextk 35 = 36 ∧ nextk 36 = 0 := by decide
theorem test_hnext : hnext 0 = 1 ∧ hnext 122 = 123 := by decide
/-- V1, the source's end-to-end example: 32 ciphertext bytes. -/
theorem test_example_ciphertext :
    encContent 0 [0x3C, 0x62, 0x6D, 0x70, 0x5F, 0x62, 0x65, 0x67, 0x69, 0x6E, 0x3E, 0x6E, 0x61, 0x6D, 0x65, 0x3A,
      0x20, 0x41, 0x7A, 0x72, 0x69, 0x65, 0x6C, 0x3C, 0x62, 0x6D, 0x70, 0x5F, 0x65, 0x6E, 0x64, 0x3E] =
    [0xAB, 0xC6, 0xAF, 0xD5, 0xC0, 0xD4, 0xA7, 0xCC, 0xCC, 0xCF, 0xB3, 0xE1, 0xC6, 0xB5, 0xCA, 0x83,
      0x93, 0x97, 0xDF, 0xE4, 0xE2, 0xAC, 0xDB, 0xAB, 0xC6, 0xC0, 0xD9, 0xD4, 0xAD, 0xE3, 0xD2, 0xA5] := by
  decide +kernel
/-- V12: content positions 35 to 39 of a run of `10` bytes tell a period of 37 from 38. -/
theorem test_key_period : (encContent 0 (List.replicate 40 0x10)).drop 35 = [0x57, 0x7F, 0x7F, 0x74, 0x52] := by
  decide +kernel
/-- V10: 125 bytes `FF` decode to `90 9B`. -/
theorem test_decode_stream : decStream (List.replicate 125 0xFF) = [0x90, 0x9B] := by decide +kernel

/-! ### One step of each operation, on the spec's examples -/

/-- R82's example. -/
theorem test_enc : (after .enc State.reset).map (fun t => (t.phase, t.olen, t.kidx)) = some (.body, 123, 0) := by
  decide
theorem test_enc_header : (after .enc State.reset).map
    (fun t => (Memory.read t.obuf 0, Memory.read t.obuf 122, Memory.read t.obuf 123)) =
    some (some 0x54, some 0x20, none) := by decide +kernel
/-- R83's example, from `DONE_OK`. -/
theorem test_dec : (after .dec decDone).map (fun t => (t.phase, t.olen, t.hcnt, t.kidx, t.op)) =
    some (.skip, 0, 0, 0, .dec) := by decide
/-- R91's example: `3C` at `KIDX = 0` gives `AB` at index 123. -/
theorem test_encData : (after (.encData 0x3C) encBody).map
    (fun t => (Memory.read t.obuf 123, t.olen, t.kidx)) = some (some 0xAB, 124, 1) := by decide +kernel
/-- V3, V12: `91` wraps to `00`; at `KIDX = 36` the index returns to 0. -/
theorem test_encData_wraps : (after (.encData 0x91) { encBody with kidx := 36 }).map
    (fun t => (Memory.read t.obuf 123, t.kidx)) = some (some 0x00, 0) := by decide +kernel
theorem test_encEnd : (after (.encEnd 0xFF) encBody).map (fun t => (t.phase, t.olen)) = some (.doneOk, 123) := by
  decide
/-- V13: `ENC, ERR 05`. -/
theorem test_encErr : (after (.encErr 0x05) encBody).map (fun t => (t.phase, t.olen, t.errcause, t.op)) =
    some (.doneErr, 0, 0x05, .enc) := by decide
theorem test_encErr_drops_buffer : (after (.encErr 0x05) encBody).map (fun t => Memory.read t.obuf 0) = some none := by
  decide
/-- V9: the first and the 123rd discarded byte. -/
theorem test_decSkipData : (after (.decSkipData 0xAA) decSkip).map (fun t => (t.hcnt, t.phase)) = some (1, .skip) := by
  decide
theorem test_decSkipData_last : (after (.decSkipData 0xAA) decLast).map
    (fun t => (t.hcnt, t.phase, t.olen, t.kidx)) = some (123, .body, 0, 0) := by decide
/-- R102: one byte short is no error. -/
theorem test_decSkipEnd : (after (.decSkipEnd 0) decLast).map (fun t => (t.phase, t.olen)) = some (.doneOk, 0) := by
  decide
theorem test_decSkipErr : (after (.decSkipErr 0x07) decSkip).map (fun t => (t.phase, t.errcause, t.op)) =
    some (.doneErr, 0x07, .dec) := by decide
/-- R104's example, and V6: `00` wraps to `91`. -/
theorem test_decData : (after (.decData 0xAB) decBody).map (fun t => (Memory.read t.obuf 0, t.olen, t.kidx)) =
    some (some 0x3C, 1, 1) := by decide +kernel
theorem test_decData_wraps : (after (.decData 0x00) decBody).map (fun t => Memory.read t.obuf 0) =
    some (some 0x91) := by decide +kernel
theorem test_decEnd : (after (.decEnd 0) decBody).map (fun t => (t.phase, t.olen)) = some (.doneOk, 0) := by decide
theorem test_decErr : (after (.decErr 0x09) decBody).map (fun t => (t.phase, t.errcause, t.olen)) =
    some (.doneErr, 0x09, 0) := by decide
/-- R105's example: `Ok([3C])`. -/
theorem test_result_ok : (after .result decDone).map State.resPort =
    some (some { ok := true, kind := .dec, cause := none, len := 1, data := [0x3C] }) := by decide
/-- V13: `Err(ENC, 05)`. -/
theorem test_result_err : (after .result encFailed).map State.resPort =
    some (some { ok := false, kind := .enc, cause := some 0x05, len := 0, data := [] }) := by decide
theorem test_reset : (after .reset decDone).map State.phase = some .idle := by decide
theorem test_reset_no_result : (after .reset decDone).bind (after .result) = none := by decide
/-- V14: transfers that are not accepted. -/
theorem test_not_accepted : exec (.encData 0x41) State.reset = .refused .tokenWhileNotBusy ∧
    exec .dec encBody = .refused .commandWhileBusy ∧ exec (.tokReserved 0xFF) encBody = .refused .reservedTokenKind ∧
    exec .result encBody = .refused .noResult := ⟨rfl, rfl, rfl, rfl⟩
theorem test_wrong_mode : exec (.decData 0) encBody = .refused .wrongMode := rfl

/-! ### The step and the first instruction after reset -/

theorem test_step_nothing_offered : step State.reset = .fault .noTransfer := rfl
/-- P4 step 4: in `DONE_ERR` a token waits and a command behind it is taken. -/
theorem test_step_takes_open_port :
    (nextState? (step { encFailed with offers := [.tok 0x042, .cmd 0] })).map (fun t => (t.phase, t.offers)) =
      some (.body, [.tok 0x042]) := by decide
/-- R136: a reset overrides what stands before it, here a reserved token at its open port. -/
theorem test_step_reset_overrides :
    (nextState? (step { encBody with offers := [.tok 0x300, .cmd 0, .reset] })).map (fun t => (t.phase, t.offers)) =
      some (.idle, [.tok 0x300, .cmd 0]) := by decide
theorem test_first_enc : (nextState? (step (State.reset.withFetchWord 8 0))).map State.phase = some .body := by decide
theorem test_first_dec : (nextState? (step (State.reset.withFetchWord 8 1))).map State.phase = some .skip := by decide
/-- V3: `ENC, D 41` appends `B0`. -/
theorem test_first_data : (nextState? (step (State.reset.withFetchWord 16 0x041))).map
    (fun t => Memory.read t.obuf 123) = some (some 0xB0) := by decide +kernel

/-! ### Invariants hold where the statements speak of them -/

theorem inv_of_no_buffer {s : State} (ho : s.obuf = []) (hl : s.olen = 0) (hop : s.op = .dec)
    (hs : s.phase = .skip → s.hcnt.toNat < 123 ∧ s.kidx = 0) (hb : s.phase = .body → s.hcnt = 123 ∧ s.kidx = 0)
    (hc : s.kidx.toNat ≤ 36 ∧ s.hcnt.toNat ≤ 123) : s.Inv where
  buffer := ⟨by rw [ho]; rfl, fun a _ => by rw [ho]; rfl⟩
  inSkip h := ⟨hop, (hs h).1, hl, (hs h).2⟩
  inBody h := ⟨(hb h).1, 0, by rw [(hb h).2]; rfl, by simp [hl, hop]⟩
  inDoneErr _ := hl
  legalCounters _ := hc
  headerEmitted h := by simp [hop] at h
  legalCode := by cases s.phase <;> decide
  filled _ a h := by omega

theorem decSkip_inv : decSkip.Inv :=
  inv_of_no_buffer rfl rfl rfl (fun _ => ⟨by decide, rfl⟩) (fun h => by cases h) (by decide)

theorem decLast_inv : decLast.Inv :=
  inv_of_no_buffer rfl rfl rfl (fun _ => ⟨by decide, rfl⟩) (fun h => by cases h) (by decide)

theorem encBody_inv : encBody.Inv where
  buffer := ⟨wf_ofBytes 0 headerRom, fun a h =>
    (read_headerImage a).trans (List.getElem?_eq_none (show headerRom.length ≤ a from h))⟩
  inSkip h := by cases h
  inBody _ := ⟨rfl, 0, rfl, rfl⟩
  inDoneErr h := by cases h
  legalCounters _ := by decide
  headerEmitted _ _ := ⟨Nat.le_refl 123, fun a _ => read_headerImage a⟩
  legalCode := by decide
  filled _ a h := by
    have h' : a < headerRom.length := h
    show (Memory.read (Memory.ofBytes 0 headerRom) a).isSome
    rw [read_headerImage, List.getElem?_eq_getElem h']
    rfl

/-- After `ENC, END` (R92's example). -/
theorem encDone_inv : (endOfInput encBody).Inv where
  buffer := ⟨encBody_inv.buffer.canonical, encBody_inv.buffer.belowLen⟩
  inSkip h := by cases h
  inBody h := by cases h
  inDoneErr h := by cases h
  legalCounters _ := encBody_inv.legalCounters (by decide)
  headerEmitted _ _ := encBody_inv.headerEmitted rfl (.inl rfl)
  legalCode := by decide
  filled _ := encBody_inv.filled (by decide)

/-! ### Witnesses: for each statement with hypotheses, states and operands that meet them together -/

theorem witness_RomsAreTheLiterals : (36 : BitVec 6).toNat < 37 ∧ keyAt 36 = 0x6F := by decide
theorem witness_Sub8IsDifferenceModulo256 : (1 : Byte).toNat ≤ (1 : Byte).toNat ∧ (0 : Byte).toNat < (1 : Byte).toNat := by
  decide
theorem witness_CountersStepAsTheRulesSay : (35 : BitVec 6).toNat < 36 ∧ (122 : BitVec 7).toNat ≤ 122 := by decide
theorem witness_TokenMapFollowsTheMode : (3 : BitVec 2) = 3 ∧ (2 : BitVec 2) ≠ 3 ∧ Phase.idle ∈ [Phase.idle, .doneOk, .doneErr] := by
  decide
theorem witness_DecodeOfEncodeIsIdentity : tokenMode .enc = none ∧ tokenMode (.encErr 0xFF) = some (.enc, .body) ∧
    tokenMode (.decSkipEnd 0) = some (.dec, .skip) ∧ tokenMode (.decData 0x80) = some (.dec, .body) := by decide
theorem witness_EncodeOfDecodeIsIdentity : decode .dec .skip (.tok 0x2FF) = .ok (.decSkipErr 0xFF) := by decide
theorem witness_ReservedTokenIsRefused : (0x300 : TokWord).extractLsb' 8 2 = 3#2 := by decide
theorem witness_IgnoredPayloadsMakeNoDifference : encBody.phase = .body ∧ decSkip.phase = .skip ∧ decLast.op = .dec ∧
    decLast.hcnt.toNat < 123 ∧ decLast.hcnt.toNat + 1 = 123 ∧
    Offer.reset ∉ [Offer.cmd 0, .tok 0x041] := by decide
theorem witness_EncStartsAnEncodeTransaction : State.reset.phase = .idle ∧ decDone.phase = .doneOk ∧
    encFailed.phase = .doneErr ∧ decSkip.phase = .skip ∧ encBody.phase = .body := by decide
theorem witness_DecArmsTheSkipStage : State.reset.notBusy ∧ decDone.notBusy ∧ encFailed.notBusy ∧
    ¬ decSkip.notBusy ∧ ¬ encBody.notBusy := by decide
theorem witness_ResultShowsTheBufferOrTheError : decDone.phase = .doneOk ∧ decDone.bufferIs [0x3C] ∧
    encFailed.phase = .doneErr ∧ encBody.phase = .body :=
  ⟨rfl, ⟨rfl, fun a h => by
    have : a = 0 := by simpa [decDone] using h
    subst this; rfl⟩, rfl, rfl⟩
theorem witness_ResultOfEncodeIsLongEnough : (endOfInput encBody).Inv ∧ (endOfInput encBody).phase = .doneOk ∧
    (endOfInput encBody).op = .enc := ⟨encDone_inv, rfl, rfl⟩
theorem witness_ResultOfAnUnwrittenByteFaults : ({ decDone with olen := 2 } : State).phase = .doneOk ∧
    Memory.read ({ decDone with olen := 2 } : State).obuf 1 = none := by decide
theorem witness_ResultStaysUntilCommandOrReset : ∃ t, exec .result decDone = .next t ∧
    decDone.phase ∈ [Phase.doneOk, .doneErr] := ⟨_, rfl, by decide⟩
theorem witness_EncDataAppendsTheSum : encBody.op = .enc ∧ encBody.phase = .body ∧ encBody.kidx.toNat ≤ 36 ∧
    ({ encBody with kidx := 36 } : State).kidx.toNat = 36 ∧ ¬ ({ encBody with kidx := 37 } : State).kidx.toNat ≤ 36 := by
  decide
theorem witness_EncEndAndEncErr : encBody.op = .enc ∧ encBody.phase = .body ∧ encBody.bufferIs headerRom :=
  ⟨rfl, rfl, rfl, fun a _ => read_headerImage a⟩
theorem witness_DecSkipOperations : decSkip.op = .dec ∧ decSkip.phase = .skip ∧ decSkip.olen = 0 ∧ decLast.phase = .skip ∧
    decLast.hcnt = 122 ∧ ({ decSkip with hcnt := 121 } : State).hcnt.toNat < 122 := by decide
theorem witness_DecBodyOperations : decBody.op = .dec ∧ decBody.phase = .body ∧ decBody.kidx.toNat ≤ 36 ∧
    decBody.bufferIs [] := ⟨rfl, rfl, by decide, rfl, fun a h => by cases h⟩
theorem witness_TokenCompletesExactlyInItsMode : tokenMode (.encEnd 0) = some (.enc, .body) ∧
    encBody.op = .enc ∧ encBody.phase = .body ∧ decBody.op ≠ .enc := by decide
theorem witness_AfterResetACommandComesFirst :
    (∃ t, step { State.reset with offers := [.tok 0x041, .cmd 1] } = .next t) ∧
    (∃ t, step { State.reset with offers := [.result, .reset] } = .next t) := ⟨⟨_, rfl⟩, ⟨_, rfl⟩⟩
theorem witness_StepRunsTheDecodedInstruction : (∀ x ∈ [Offer.cmd 1], portOpen encBody.phase x = false) ∧
    portOpen encBody.phase (.tok 0x041) = true ∧
    decode encBody.op encBody.phase (.tok 0x041) = .ok (.encData 0x41) ∧ Offer.reset ∉ [Offer.cmd 0, .tok 0x041] ∧
    portOpen encBody.phase .reset = true ∧ decode encBody.op encBody.phase .reset = .ok .reset := by decide
theorem witness_StepIsStuckWithoutATransfer : (∀ o ∈ [Offer.cmd 0, .result], portOpen encBody.phase o = false) ∧
    ¬ (∀ o ∈ [Offer.tok 0x041], portOpen encBody.phase o = false) := by decide
theorem witness_ResetOverridesEverythingOffered : Offer.reset ∈ [Offer.tok 0x300, .reset] ∧ encBody.phase = .body ∧
    (0x300 : TokWord).extractLsb' 8 2 = 3#2 ∧ (∀ x ∈ [Offer.cmd 0], portOpen encBody.phase x = false) ∧
    Offer.reset ∉ [Offer.tok 0x041] := by decide
theorem witness_CommandWaitsWhileBusy : decSkip.phase = .skip ∧ encBody.phase = .body ∧ State.reset.notBusy ∧
    Offer.reset ∉ [Offer.cmd 0, .tok 0x041] := by decide
theorem witness_TokenWaitsUntilBusy : State.reset.notBusy ∧ encBody.busyMode ∧ decSkip.busyMode ∧ decBody.busyMode ∧
    (0x2FF : TokWord).extractLsb' 8 2 ≠ 3#2 ∧ Offer.reset ∉ [Offer.cmd 0, .tok 0x041] := by decide
theorem witness_PhaseMovesExactlyByTheTable : ({ decLast with offers := [.cmd 0, .tok 0x041] } : State).Inv ∧
    nextTransfer decLast.phase [.cmd 0, .tok 0x041] = some (.tok 0x041, [.cmd 0]) ∧
    phaseAfter decLast.phase decLast.hcnt.toNat (.tok 0x041) = some .body := ⟨inv_withOffers _ decLast_inv, by decide, by decide⟩
theorem witness_OnlyEndErrOrResetLeavesBusy : ∃ t, exec (.encEnd 0) encBody = .next t ∧ encBody.phase = .body :=
  ⟨_, rfl, rfl⟩
theorem witness_OpAndErrcauseWritersAreTheirRules : (∃ t, exec (.decSkipErr 7) decSkip = .next t) ∧
    (∃ t, exec .dec State.reset = .next t) ∧ (∃ t, exec (.encData 0) encBody = .next t) := ⟨⟨_, rfl⟩, ⟨_, rfl⟩, ⟨_, rfl⟩⟩
theorem witness_HeaderCounterNeverDecreasesInATransaction : decLast.Inv ∧
    decLast.phase = .skip ∧ ∃ t, exec (.decSkipData 0) decLast = .next t := ⟨decLast_inv, rfl, _, rfl⟩
theorem witness_BufferIsAppendOnly : encBody.BufferInv ∧ (∃ t, exec (.encData 0) encBody = .next t) ∧
    raisesReadError (.encData 0) = false ∧ Memory.read encBody.obuf 0 = some 0x54 :=
  ⟨encBody_inv.buffer, ⟨_, rfl⟩, rfl, rfl⟩
theorem witness_PortsMoveOnlyByTheirOwnTransfers : (∃ t, exec .reset encBody = .next t) ∧
    (∃ t, exec .result decDone = .next t) := ⟨⟨_, rfl⟩, ⟨_, rfl⟩⟩
theorem witness_StepKeepsTheInvariants : ({ encBody with offers := [.tok 0x041] } : State).Inv ∧
    ∃ t, step { encBody with offers := [.tok 0x041] } = .next t := ⟨inv_withOffers _ encBody_inv, _, rfl⟩
theorem witness_StepKeepsTheBufferForm : ({ encBody with offers := [.tok 0x041] } : State).BufferInv ∧
    ∃ t, step { encBody with offers := [.tok 0x041] } = .next t := ⟨(inv_withOffers _ encBody_inv).buffer, _, rfl⟩
theorem witness_ReachableStatesHaveTheInvariants : ∃ s, Reachable s ∧ s.phase = .body ∧ s.olen = 123 :=
  ⟨_, .step (.offer [.cmd 0] .reset) rfl, rfl, rfl⟩
theorem witness_CommandForgetsEarlierTransactions : decDone.notBusy ∧ encFailed.notBusy ∧
    agree encBody (startEncode encFailed) ∧ encBody ≠ startEncode encFailed ∧
    ∃ t, exec (.encData 0x41) encBody = .next t :=
  ⟨by decide, by decide, ⟨rfl, fun _ => ⟨rfl, rfl, rfl, rfl, rfl⟩, fun h => by cases h⟩,
    fun h => absurd (congrArg State.errcause h) (by decide), _, rfl⟩
theorem witness_RunsDependOnTheTransfersOnly : ∃ s', State.reset.notBusy ∧ encFailed.notBusy ∧
    runSteps 1 { State.reset with offers := [.cmd 0] } = .next s' := ⟨_, by decide, by decide, rfl⟩
theorem witness_InstancesStepIndependently : ∃ sys', (0 : Nat) ≠ 1 ∧
    stepAt 0 [{ State.reset with offers := [.cmd 0] }, { State.reset with offers := [.cmd 1] }] = some sys' :=
  ⟨_, by decide, rfl⟩
theorem witness_Transactions (os : List Offer) : ({ State.reset with offers := os } : State).notBusy ∧
    ({ decDone with offers := os } : State).notBusy ∧ ({ encFailed with offers := os } : State).notBusy ∧
    Offer.reset ∉ [Offer.cmd 0, .tok 0x041] :=
  ⟨by simp [State.reset], by simp [decDone], by simp [encFailed], by decide⟩
theorem witness_KeyIndexFollowsTheContentPosition : State.reset.notBusy ∧ (List.replicate 123 (0 : Byte)).length = 123 ∧
    ({ State.reset with offers := [.cmd 1, .tok 0x054] } : State).offers = cmdOffer .dec :: (dataOffers [0x54] ++ []) ∧
    Offer.reset ∉ ([] : List Offer) :=
  ⟨by decide, by simp, rfl, by decide⟩
theorem witness_TransactionEndsWhenItsStreamEnds :
    ({ decSkip with offers := dataOffers [0x54, 0x68] ++ [endOffer] } : State).busyMode ∧
    Offer.reset ∉ ([] : List Offer) := by decide
theorem witness_ShortStreamsDecodeToNothing : (List.replicate 123 (0xFF : Byte)).length ≤ 123 ∧
    ([] : List Byte).length ≤ 123 := by simp
theorem witness_StreamBytes : ([0x41, 0xFF] : List Byte)[1]? = some 0xFF := by decide
theorem witness_KeyPeriodIs37 : 0 + 37 < (List.replicate 38 (0 : Byte)).length ∧
    (List.replicate 38 (0 : Byte))[0]? = (List.replicate 38 (0 : Byte))[0 + 37]? ∧ keyRom[37 % 37]? = some 0x6F := by decide
theorem witness_DecoderIgnoresTheHeaderContent : headerRom.length = 123 ∧ (List.replicate 123 (0xAA : Byte)).length = 123 ∧
    123 ≤ (List.replicate 124 (0xAA : Byte)).length ∧ (List.replicate 122 (0xAA : Byte)).length < 123 := by simp
theorem witness_TransformIsLocalAndPrefixPreserving : 0 % 37 = 37 % 37 ∧ ([0x41] : List Byte)[0]? = some 0x41 ∧
    (List.replicate 38 (0x41 : Byte))[37]? = some 0x41 ∧ ([0x41] : List Byte) <+: [0x41, 0x42] := by decide

end Sys2Proof.Tests
end

section
/-!
PROOFS. The state and its ports (10_state.md): which transfers wait and which are taken (R21, R22), how long a result
stays (R23), and what a command forgets (R24).
-/

namespace Sys2Proof.Machine

/-! ### Acceptance: when an instruction completes -/

/-- Outside the busy phases `ENC` completes (R82). -/
theorem exec_enc_of_notBusy {s : State} (h : s.notBusy) : exec .enc s = .next (startEncode s) :=
  (acceptCommand_next_iff s _ _).2 ⟨h, rfl⟩

/-- Outside the busy phases `DEC` completes (R83). -/
theorem exec_dec_of_notBusy {s : State} (h : s.notBusy) : exec .dec s = .next (startDecode s) :=
  (acceptCommand_next_iff s _ _).2 ⟨h, rfl⟩

/-- Outside the busy phases a command word is accepted, and opens the body of an encode or the skip stage of a decode
transaction (R51, R82, R83). -/
theorem exec_decodeCmd_of_notBusy {s : State} (w : CmdWord) (h : s.notBusy) :
    ∃ t, exec (decodeCmd w) s = .next t ∧ t.phase = if w = 0 then .body else .skip := by
  by_cases hw : w = 0
  · have hi : decodeCmd w = .enc := if_pos hw
    exact ⟨startEncode s, hi ▸ exec_enc_of_notBusy h, (if_pos hw).symm⟩
  · have hi : decodeCmd w = .dec := if_neg hw
    exact ⟨startDecode s, hi ▸ exec_dec_of_notBusy h, (if_neg hw).symm⟩

/-- A token operation is accepted by its mode of R53 alone. -/
theorem exec_eq_acceptToken {i : Instr} {op : Op} {phase : Phase} (s : State) (h : tokenMode i = some (op, phase)) :
    ∃ t, exec i s = acceptToken op phase s t := by
  cases i <;> cases h <;> exact ⟨_, rfl⟩

/-- The mode of a token operation is busy. -/
theorem busy_of_tokenMode {i : Instr} {op : Op} {phase : Phase} (h : tokenMode i = some (op, phase)) :
    phase.busy = true := by
  cases i <;> cases h <;> rfl

/-- A token operation completes in its mode. -/
theorem exec_of_tokenMode {i : Instr} {s : State} (h : tokenMode i = some (s.op, s.phase)) :
    ∃ t, exec i s = .next t := by
  obtain ⟨t, ht⟩ := exec_eq_acceptToken s h
  exact ⟨t, ht.trans ((acceptToken_next_iff _ _ s t t (busy_of_tokenMode h)).2 ⟨rfl, rfl, rfl⟩)⟩

/-- A token operation completes in no other mode than its own. -/
theorem mode_of_exec {i : Instr} {op : Op} {phase : Phase} {s t : State} (hm : tokenMode i = some (op, phase))
    (h : exec i s = .next t) : s.op = op ∧ s.phase = phase := by
  obtain ⟨u, hu⟩ := exec_eq_acceptToken s hm
  obtain ⟨hop, hphase, -⟩ := (acceptToken_next_iff op phase s u t (busy_of_tokenMode hm)).1 (hu ▸ h)
  exact ⟨hop, hphase⟩

/-- The observation of a buffer whose bytes all have a value (R86). -/
theorem exec_result_of_doneOk {s : State} {data : List Byte} (hp : s.phase = .doneOk)
    (hd : Memory.readRange s.obuf 0 s.olen = some data) :
    exec .result s = .next (showResult s (okRecord s data)) := by
  simp [exec, execResult, hp, hd]

/-- The observation of an error (R86). -/
theorem exec_result_of_doneErr {s : State} (hp : s.phase = .doneErr) :
    exec .result s = .next (showResult s (errRecord s)) := by
  simp [exec, execResult, hp]

/-- Everything an observation can do when it completes: it shows the buffer or the error, and nothing else. -/
theorem exec_result_next_cases {s t : State} (h : exec .result s = .next t) :
    (s.phase = .doneOk ∧ ∃ data, Memory.readRange s.obuf 0 s.olen = some data ∧
      t = showResult s (okRecord s data)) ∨
    (s.phase = .doneErr ∧ t = showResult s (errRecord s)) := by
  simpa [endsInput] using exec_next_cases h

/-- The observation changes none of the seven pieces of state (R23). -/
theorem exec_result_keepsCore {s t : State} (h : exec .result s = .next t) : keepsCore s t := by
  obtain ⟨-, data, -, rfl⟩ | ⟨-, rfl⟩ := exec_result_next_cases h <;> simp [keepsCore]

/-- The reserved kind is the code 3 (R52). -/
theorem tokKind_eq_reserved_iff (w : TokWord) : tokKind w = .reserved ↔ w.extractLsb' 8 2 = 3#2 := by
  unfold tokKind
  generalize w.extractLsb' 8 2 = k
  revert k
  decide

/-- In a busy mode a column of the map of R53 answers one of its three operations. -/
theorem byMode_of_busyMode {s : State} (h : s.busyMode) (e k d : Instr) :
    (byMode s.op s.phase e k d = .ok e ∧ (s.op, s.phase) = (.enc, .body)) ∨
    (byMode s.op s.phase e k d = .ok k ∧ (s.op, s.phase) = (.dec, .skip)) ∨
    (byMode s.op s.phase e k d = .ok d ∧ (s.op, s.phase) = (.dec, .body)) := by
  obtain ⟨ho, hp⟩ | ⟨ho, hp⟩ | ⟨ho, hp⟩ := h <;> simp [byMode, ho, hp]

/-- In a busy mode a token word of a legal kind stands for an operation of that mode (R53). -/
theorem decode_tok_of_busyMode {s : State} {w : TokWord} (h : s.busyMode) (hw : w.extractLsb' 8 2 ≠ 3#2) :
    ∃ i, decode s.op s.phase (.tok w) = .ok i ∧ tokenMode i = some (s.op, s.phase) := by
  have column (e k d : Instr) (he : tokenMode e = some (.enc, .body)) (hk : tokenMode k = some (.dec, .skip))
      (hd : tokenMode d = some (.dec, .body)) :
      ∃ i, byMode s.op s.phase e k d = .ok i ∧ tokenMode i = some (s.op, s.phase) := by
    obtain ⟨hi, hm⟩ | ⟨hi, hm⟩ | ⟨hi, hm⟩ := byMode_of_busyMode h e k d
    · exact ⟨e, hi, hm ▸ he⟩
    · exact ⟨k, hi, hm ▸ hk⟩
    · exact ⟨d, hi, hm ▸ hd⟩
  simp only [decode, decodeTok]
  cases hk : tokKind w with
  | data => exact column _ _ _ rfl rfl rfl
  | endOfInput => exact column _ _ _ rfl rfl rfl
  | err => exact column _ _ _ rfl rfl rfl
  | reserved => exact absurd ((tokKind_eq_reserved_iff w).1 hk) hw

/-! ### An offer at a closed port waits -/

/-- The outcome with its next state, if it has one, changed by `f`. -/
def mapNext (f : State → State) : Host.Outcome State Fault Refusal → Host.Outcome State Fault Refusal
  | .next t => .next (f t)
  | .fault r => .fault r
  | .refused r => .refused r

/-- The state with one more offer pending, before all others. -/
def alsoOffered (o : Offer) (s : State) : State := { s with offers := o :: s.offers }

@[simp] theorem alsoOffered_op (o : Offer) (s : State) : (alsoOffered o s).op = s.op := rfl
@[simp] theorem alsoOffered_phase (o : Offer) (s : State) : (alsoOffered o s).phase = s.phase := rfl

theorem acceptCommand_alsoOffered (o : Offer) (s t : State) :
    acceptCommand (alsoOffered o s) (alsoOffered o t) = mapNext (alsoOffered o) (acceptCommand s t) := by
  unfold acceptCommand
  rw [apply_ite (mapNext (alsoOffered o))]
  rfl

theorem acceptToken_alsoOffered (op : Op) (phase : Phase) (o : Offer) (s t : State) :
    acceptToken op phase (alsoOffered o s) (alsoOffered o t) = mapNext (alsoOffered o) (acceptToken op phase s t) := by
  unfold acceptToken
  rw [apply_ite (mapNext (alsoOffered o)), apply_ite (mapNext (alsoOffered o))]
  rfl

theorem skipHeaderByte_alsoOffered (o : Offer) (s : State) :
    skipHeaderByte (alsoOffered o s) = alsoOffered o (skipHeaderByte s) := by
  unfold skipHeaderByte
  rw [apply_ite (alsoOffered o)]
  rfl

theorem execResult_alsoOffered (o : Offer) (s : State) :
    execResult (alsoOffered o s) = mapNext (alsoOffered o) (execResult s) := by
  simp only [execResult, alsoOffered]
  split
  · split <;> rfl
  all_goals rfl

/-- No instruction depends on what is offered, and a pending offer stays first. -/
theorem exec_alsoOffered (i : Instr) (o : Offer) (s : State) :
    exec i (alsoOffered o s) = mapNext (alsoOffered o) (exec i s) := by
  cases i with
  | enc => exact acceptCommand_alsoOffered o s (startEncode s)
  | dec => exact acceptCommand_alsoOffered o s (startDecode s)
  | encData | decData => exact acceptToken_alsoOffered _ _ o s (emitContent s _)
  | decSkipData p =>
    simp only [exec, execDecSkipData, skipHeaderByte_alsoOffered]
    exact acceptToken_alsoOffered _ _ o s (skipHeaderByte s)
  | encEnd | decSkipEnd | decEnd => exact acceptToken_alsoOffered _ _ o s (endOfInput s)
  | encErr c | decSkipErr c | decErr c => exact acceptToken_alsoOffered _ _ o s (raiseReadError c s)
  | tokReserved => rfl
  | result => exact execResult_alsoOffered o s
  | reset => rfl

/-- An offer at a closed port is passed over: the transfer chosen is the one chosen without it. -/
theorem nextTransfer_cons_of_closed {phase : Phase} {o : Offer} (h : portOpen phase o = false) (os : List Offer) :
    nextTransfer phase (o :: os) = (nextTransfer phase os).map fun x => (x.1, o :: x.2) := by
  have hne : o ≠ .reset := fun ho => by simp [ho, portOpen] at h
  by_cases hr : Offer.reset ∈ os
  · rw [nextTransfer_of_reset hr, nextTransfer_of_reset (List.mem_cons_of_mem _ hr), List.erase_cons_tail (by simpa)]
    rfl
  · rw [nextTransfer_of_no_reset hr, nextTransfer_of_no_reset (by simp [hr, hne.symm])]
    cases ht : takeOpen phase os <;> simp [takeOpen, h, ht]

/-- An offer at a closed port is not accepted, changes nothing and stays pending (R21, R22, R80). -/
theorem step_alsoOffered_of_closed {o : Offer} {s : State} (h : portOpen s.phase o = false) :
    step (alsoOffered o s) = mapNext (alsoOffered o) (step s) := by
  have hn : nextTransfer (alsoOffered o s).phase (alsoOffered o s).offers =
      (nextTransfer s.phase s.offers).map fun x => (x.1, o :: x.2) := nextTransfer_cons_of_closed h s.offers
  unfold step
  rw [hn, alsoOffered_op, alsoOffered_phase]
  cases nextTransfer s.phase s.offers with
  | none => rfl
  | some x =>
    simp only [Option.map_some]
    cases decode s.op s.phase x.1 with
    | error e => rfl
    | ok i => exact exec_alsoOffered i o { s with offers := x.2 }

/-! ### No state carries over from an earlier transaction -/

section
variable {s t : State}

theorem agree_op (h : agree s t) (hp : s.phase ≠ .idle) : s.op = t.op := by
  obtain ⟨hop, -⟩ := h.registers hp
  exact hop

theorem agree_kidx (h : agree s t) (hp : s.phase ≠ .idle) : s.kidx = t.kidx := by
  obtain ⟨-, -, hkidx, -⟩ := h.registers hp
  exact hkidx

theorem agree_startEncode (s t : State) : agree (startEncode s) (startEncode t) where
  phase := rfl
  registers _ := by simp
  cause h := by cases h

theorem agree_startDecode (s t : State) : agree (startDecode s) (startDecode t) where
  phase := rfl
  registers _ := by simp
  cause h := by cases h

theorem agree_resetEvent (s t : State) : agree (resetEvent s) (resetEvent t) where
  phase := rfl
  registers h := absurd rfl h
  cause h := by cases h

theorem agree_raiseReadError (c : Byte) (h : agree s t) (hp : s.phase ≠ .idle) :
    agree (raiseReadError c s) (raiseReadError c t) where
  phase := rfl
  registers _ := by
    obtain ⟨hop, hhcnt, hkidx, -, -⟩ := h.registers hp
    simp [hop, hhcnt, hkidx]
  cause _ := rfl

theorem agree_endOfInput (h : agree s t) (hp : s.phase ≠ .idle) : agree (endOfInput s) (endOfInput t) where
  phase := rfl
  registers _ := h.registers hp
  cause h := by cases h

theorem agree_emitContent (v : Byte) (h : agree s t) (hp : s.phase ≠ .idle) :
    agree (emitContent s v) (emitContent t v) where
  phase := h.phase
  registers _ := by
    obtain ⟨hop, hhcnt, hkidx, holen, hobuf⟩ := h.registers hp
    simp [hop, hhcnt, hkidx, holen, hobuf]
  cause := h.cause

theorem agree_skipHeaderByte (h : agree s t) (hp : s.phase ≠ .idle) :
    agree (skipHeaderByte s) (skipHeaderByte t) := by
  obtain ⟨hop, hhcnt, hkidx, holen, hobuf⟩ := h.registers hp
  by_cases hlast : s.hcnt = 122
  · rw [skipHeaderByte_last hlast, skipHeaderByte_last (hhcnt ▸ hlast)]
    exact ⟨rfl, fun _ => ⟨hop, rfl, hkidx, holen, hobuf⟩, fun hp' => by cases hp'⟩
  · rw [skipHeaderByte_counts hlast, skipHeaderByte_counts (hhcnt ▸ hlast)]
    exact ⟨h.phase, fun _ => ⟨hop, congrArg hnext hhcnt, hkidx, holen, hobuf⟩, h.cause⟩

theorem agree_showResult (r : ResRecord) (h : agree s t) : agree (showResult s r) (showResult t r) :=
  ⟨h.phase, h.registers, h.cause⟩

/-- Alike states accept the same commands. -/
theorem acceptCommand_agree {u v s' : State} (h : agree s t) (huv : agree u v)
    (hs : acceptCommand s u = .next s') : ∃ t', acceptCommand t v = .next t' ∧ agree s' t' := by
  obtain ⟨hfree, rfl⟩ := (acceptCommand_next_iff s u s').1 hs
  have htfree : t.notBusy := by rwa [State.notBusy, ← h.phase]
  exact ⟨v, (acceptCommand_next_iff t v v).2 ⟨htfree, rfl⟩, huv⟩

/-- Alike states accept the same tokens; only what a busy state leads to need be alike. -/
theorem acceptToken_agree {op : Op} {phase : Phase} {u v s' : State} (hb : phase.busy = true) (h : agree s t)
    (huv : s.phase ≠ .idle → agree u v) (hs : acceptToken op phase s u = .next s') :
    ∃ t', acceptToken op phase t v = .next t' ∧ agree s' t' := by
  obtain ⟨hop, rfl, rfl⟩ := (acceptToken_next_iff op phase s u s' hb).1 hs
  have hp : s.phase ≠ .idle := fun hi => by simp [hi, Phase.busy] at hb
  exact ⟨v, (acceptToken_next_iff _ _ t v v hb).2 ⟨agree_op h hp ▸ hop, h.phase.symm, rfl⟩, huv hp⟩

/-- Alike states show the same result. -/
theorem exec_result_agree {s' : State} (h : agree s t) (hs : exec .result s = .next s') :
    ∃ t', exec .result t = .next t' ∧ agree s' t' ∧ s'.resPort = t'.resPort := by
  obtain ⟨hp, data, hd, rfl⟩ | ⟨hp, rfl⟩ := exec_result_next_cases hs
  · obtain ⟨hop, -, -, holen, hobuf⟩ := h.registers (by simp [hp])
    have hrec : okRecord s data = okRecord t data := by simp [okRecord, hop, holen]
    refine ⟨_, exec_result_of_doneOk (h.phase ▸ hp) (hobuf ▸ holen ▸ hd), ?_⟩
    exact hrec ▸ ⟨agree_showResult _ h, rfl⟩
  · have hop : s.op = t.op := agree_op h (by simp [hp])
    have hrec : errRecord s = errRecord t := by simp [errRecord, hop, h.cause hp]
    refine ⟨_, exec_result_of_doneErr (h.phase ▸ hp), ?_⟩
    exact hrec ▸ ⟨agree_showResult _ h, rfl⟩

/-- Alike states do alike on every instruction. -/
theorem exec_agree {i : Instr} {s' : State} (h : agree s t) (hs : exec i s = .next s') :
    ∃ t', exec i t = .next t' ∧ agree s' t' := by
  cases i with
  | enc => exact acceptCommand_agree h (agree_startEncode s t) hs
  | dec => exact acceptCommand_agree h (agree_startDecode s t) hs
  | encData b =>
    refine acceptToken_agree rfl h (fun hp => ?_) hs
    rw [agree_kidx h hp]
    exact agree_emitContent _ h hp
  | decData b =>
    refine acceptToken_agree rfl h (fun hp => ?_) hs
    rw [agree_kidx h hp]
    exact agree_emitContent _ h hp
  | decSkipData p => exact acceptToken_agree rfl h (agree_skipHeaderByte h) hs
  | encEnd | decSkipEnd | decEnd => exact acceptToken_agree rfl h (agree_endOfInput h) hs
  | encErr c | decSkipErr c | decErr c => exact acceptToken_agree rfl h (agree_raiseReadError c h) hs
  | tokReserved => cases hs
  | result =>
    obtain ⟨t', ht, hagree, -⟩ := exec_result_agree h hs
    exact ⟨t', ht, hagree⟩
  | reset =>
    obtain rfl := Host.Outcome.next.inj hs
    exact ⟨_, rfl, agree_resetEvent s t⟩

end

/-! ### The obligations -/

/-- Settles O31: in a busy phase the port `CMD` is closed, and the step passes a closed port over; outside it a command
at the head of the offers is the next transfer. -/
theorem commandWaitsWhileBusy : Obligations.CommandWaitsWhileBusy := by
  refine ⟨fun s w os hbusy => ?_, fun s w os hr hidle => ?_⟩
  · have hclosed : portOpen s.phase (.cmd w) = false := by
      obtain hp | hp := hbusy <;> simp [portOpen, Phase.busy, hp]
    refine (step_alsoOffered_of_closed (s := { s with offers := os }) hclosed).trans ?_
    cases step { s with offers := os } <;> rfl
  · have hopen : portOpen s.phase (.cmd w) = true := by simp [portOpen, (busy_eq_false_iff s).2 hidle]
    have hstep : step { s with offers := .cmd w :: os } = exec (decodeCmd w) { s with offers := os } :=
      step_head rfl hr hopen rfl
    obtain ⟨t, ht, hphase⟩ := exec_decodeCmd_of_notBusy (s := { s with offers := os }) w hidle
    exact ⟨t, hstep.trans ht, exec_offers ht, hphase⟩

/-- Settles O32: outside the busy phases the port `IN` is closed, and the step passes a closed port over; in a busy mode
a word of a legal kind stands for an operation of that mode, which completes. -/
theorem tokenWaitsUntilBusy : Obligations.TokenWaitsUntilBusy := by
  refine ⟨fun s w os hidle => ?_, fun s w os hr hbusy hw => ?_⟩
  · have hclosed : portOpen s.phase (.tok w) = false := (busy_eq_false_iff s).2 hidle
    refine (step_alsoOffered_of_closed (s := { s with offers := os }) hclosed).trans ?_
    cases step { s with offers := os } <;> rfl
  · obtain ⟨i, hdec, hmode⟩ := decode_tok_of_busyMode hbusy hw
    have hstep : step { s with offers := .tok w :: os } = exec i { s with offers := os } :=
      step_head rfl hr (busy_of_tokenMode hmode) hdec
    obtain ⟨t, ht⟩ := exec_of_tokenMode (s := { s with offers := os }) hmode
    exact ⟨t, hstep.trans ht, exec_offers ht⟩

/-- Settles O16: a token completes in its own busy mode only, so what completes after the end and is no command and no
reset is the observation. -/
theorem resultStaysUntilCommandOrReset : Obligations.ResultStaysUntilCommandOrReset := by
  refine ⟨fun s hp => ?_, fun i s t hp h henc hdec hreset => ?_⟩
  · simp only [List.mem_cons, List.not_mem_nil, or_false] at hp
    obtain hp | hp | hp := hp <;> simp [exec, execResult, hp]
  · cases hm : tokenMode i with
    | some m =>
      obtain ⟨-, hphase⟩ := mode_of_exec hm h
      have hbusy : s.phase.busy = true := hphase ▸ busy_of_tokenMode hm
      have hfree : s.phase.busy = false := (busy_eq_false_iff s).2 (List.mem_cons_of_mem _ hp)
      simp [hbusy] at hfree
    | none =>
      cases i with
      | enc => exact absurd rfl henc
      | dec => exact absurd rfl hdec
      | reset => exact absurd rfl hreset
      | tokReserved => cases h
      | result => exact ⟨rfl, exec_result_keepsCore h⟩
      | _ => cases hm

/-- Settles O43: a command overwrites every register but `ERRCAUSE`, and no rule reads more than `agree` compares. -/
theorem commandForgetsEarlierTransactions : Obligations.CommandForgetsEarlierTransactions := by
  refine ⟨fun i s t hi hs ht => ?_, fun i s t s' h hs => ?_⟩
  · obtain rfl | rfl := hi
    · exact ⟨_, _, exec_enc_of_notBusy hs, exec_enc_of_notBusy ht, agree_startEncode s t⟩
    · exact ⟨_, _, exec_dec_of_notBusy hs, exec_dec_of_notBusy ht, agree_startDecode s t⟩
  · by_cases hi : i = .result
    · subst hi
      obtain ⟨t', ht, hagree, hres⟩ := exec_result_agree h hs
      exact ⟨t', ht, hagree, fun _ => hres⟩
    · obtain ⟨t', ht, hagree⟩ := exec_agree h hs
      exact ⟨t', ht, hagree, fun hr => absurd hr hi⟩

end Sys2Proof.Machine
end

section
/-!
PROOFS. Words (30_encoding.md): the map from mode and token kind to the operation (R53), the reserved kind (R56), and
the payloads no operation reads (R57).
-/

namespace Sys2Proof

/-! ### The map of R53, by the kind of the token word -/

/-- The kind bits of a word are the two above its payload (R52). -/
theorem tokKind_append_eq_reserved_iff (kind : BitVec 2) (p : Byte) :
    tokKind (kind ++ p) = .reserved ↔ kind = 3#2 := by
  rw [Machine.tokKind_eq_reserved_iff, BitVec.extractLsb'_append_eq_left]

@[simp] theorem decode_tokWord_data (op : Op) (phase : Phase) (b : Byte) :
    decode op phase (.tok (tokWord .data b)) = byMode op phase (.encData b) (.decSkipData b) (.decData b) := by
  simp [decode, decodeTok]

@[simp] theorem decode_tokWord_endOfInput (op : Op) (phase : Phase) (p : Byte) :
    decode op phase (.tok (tokWord .endOfInput p)) = byMode op phase (.encEnd p) (.decSkipEnd p) (.decEnd p) := by
  simp [decode, decodeTok]

@[simp] theorem decode_tokWord_err (op : Op) (phase : Phase) (c : Byte) :
    decode op phase (.tok (tokWord .err c)) = byMode op phase (.encErr c) (.decSkipErr c) (.decErr c) := by
  simp [decode, decodeTok]

@[simp] theorem decode_tokWord_reserved (op : Op) (phase : Phase) (p : Byte) :
    decode op phase (.tok (tokWord .reserved p)) = .ok (.tokReserved p) := by
  simp [decode, decodeTok]

/-- A word of the reserved kind stands for the reserved operation in every mode (R56). -/
theorem decode_tok_of_reserved {w : TokWord} (hw : tokKind w = .reserved) (op : Op) (phase : Phase) :
    decode op phase (.tok w) = .ok (.tokReserved (tokPayload w)) := by
  simp only [decode, decodeTok, hw]

/-- A word of any other kind is read from one column of the map (R53). -/
theorem decode_tok_eq_byMode {w : TokWord} (hw : tokKind w ≠ .reserved) :
    ∃ e k d, ∀ op phase, decode op phase (.tok w) = byMode op phase e k d := by
  simp only [decode, decodeTok]
  cases hk : tokKind w with
  | data => exact ⟨_, _, _, fun _ _ => rfl⟩
  | endOfInput => exact ⟨_, _, _, fun _ _ => rfl⟩
  | err => exact ⟨_, _, _, fun _ _ => rfl⟩
  | reserved => exact absurd hk hw

/-- Outside the busy phases no column of the map has an operation (R22, R53). -/
theorem byMode_of_notBusy {phase : Phase} (hp : phase ∈ [Phase.idle, .doneOk, .doneErr]) (op : Op) (e k d : Instr) :
    byMode op phase e k d = .error .tokenWhileNotBusy := by
  simp only [List.mem_cons, List.not_mem_nil, or_false] at hp
  obtain rfl | rfl | rfl := hp <;> rfl

/-- The port `CMD` is open outside the busy phases (R21). -/
theorem portOpen_cmd_iff (phase : Phase) (w : CmdWord) :
    portOpen phase (.cmd w) = true ↔ phase ∈ [Phase.idle, .doneOk, .doneErr] := by
  cases phase <;> simp [portOpen, Phase.busy]

/-- The port `IN` is open in the busy phases (R22). -/
theorem portOpen_tok_iff (phase : Phase) (w : TokWord) :
    portOpen phase (.tok w) = true ↔ phase ∈ [Phase.skip, .body] := by
  cases phase <;> simp [portOpen, Phase.busy]

end Sys2Proof

namespace Sys2Proof.Machine

/-! ### A token at the head of the offers -/

/-- A busy phase is that of one of the three modes of R53, or the mode the map calls unreachable. -/
theorem busyMode_or_unreachable {s : State} (h : s.phase = .skip ∨ s.phase = .body) :
    s.busyMode ∨ (s.op = .enc ∧ s.phase = .skip) := by
  cases ho : s.op <;> obtain hp | hp := h <;> simp [State.busyMode, ho, hp]

/-- In a busy mode an `END` word stands for the `END` operation of that mode (R53). -/
theorem decode_endOfInput_of_busyMode {s : State} (h : s.busyMode) (p : Byte) :
    ∃ i, decode s.op s.phase (.tok (tokWord .endOfInput p)) = .ok i ∧ endsInput i = true ∧
      tokenMode i = some (s.op, s.phase) := by
  rw [decode_tokWord_endOfInput]
  obtain ⟨hi, hmode⟩ | ⟨hi, hmode⟩ | ⟨hi, hmode⟩ := byMode_of_busyMode h (.encEnd p) (.decSkipEnd p) (.decEnd p) <;>
    exact ⟨_, hi, rfl, congrArg some hmode.symm⟩

/-- In its mode an `END` operation ends the transaction, whatever its payload (R92, R102, R105). -/
theorem exec_of_endsInput {i : Instr} {s : State} (hi : endsInput i = true)
    (hm : tokenMode i = some (s.op, s.phase)) : exec i s = .next (endOfInput s) := by
  cases i with
  | encEnd | decSkipEnd | decEnd =>
    obtain ⟨hop, hphase⟩ := Prod.mk.inj (Option.some.inj hm)
    exact (acceptToken_next_iff _ _ s _ _ rfl).2 ⟨hop.symm, hphase.symm, rfl⟩
  | _ => cases hi

/-- In the skip stage a `DATA` token discards one header byte, whatever its payload (R101). -/
theorem exec_decSkipData_of_skip {s : State} (p : Byte) (ho : s.op = .dec) (hp : s.phase = .skip) :
    exec (.decSkipData p) s = .next (skipHeaderByte s) :=
  (acceptToken_next_iff _ _ s _ _ rfl).2 ⟨ho, hp, rfl⟩

/-- A discarded byte is counted, the 123rd included (R101). -/
theorem skipHeaderByte_hcnt_toNat {s : State} (h : s.hcnt.toNat < 123) :
    (skipHeaderByte s).hcnt.toNat = s.hcnt.toNat + 1 := by
  by_cases hlast : s.hcnt = 122
  · simp [skipHeaderByte_last hlast, hlast]
  · rw [skipHeaderByte_counts hlast]
    exact hnext_toNat (by omega)

section
variable {s : State} {rest : List Offer}

/-- A token word at its open port is executed as the operation it stands for. -/
theorem step_tok_head {w : TokWord} {i : Instr} (hr : Offer.reset ∉ rest)
    (hopen : portOpen s.phase (.tok w) = true) (hdec : decode s.op s.phase (.tok w) = .ok i) :
    step { s with offers := .tok w :: rest } = exec i { s with offers := rest } :=
  step_head (s := { s with offers := .tok w :: rest }) rfl hr hopen hdec

/-- A token word at its open port that stands for no operation is refused. -/
theorem step_tok_head_of_error {w : TokWord} {e : DecodeError} (hr : Offer.reset ∉ rest)
    (hopen : portOpen s.phase (.tok w) = true) (hdec : decode s.op s.phase (.tok w) = .error e) :
    step { s with offers := .tok w :: rest } = .refused (decodeRefusal e) := by
  have hnext : nextTransfer s.phase (.tok w :: rest) = some (.tok w, rest) :=
    nextTransfer_of_open (pre := []) hopen (by simp) (.inr hr)
  simp [step, hnext, hdec]

/-- In every busy mode the step of an `END` token ends the transaction (R53). -/
theorem step_endOfInput_head_of_busyMode (hr : Offer.reset ∉ rest) (hm : s.busyMode) (p : Byte) :
    step { s with offers := .tok (tokWord .endOfInput p) :: rest } =
      .next (endOfInput { s with offers := rest }) := by
  obtain ⟨i, hdec, hi, hmode⟩ := decode_endOfInput_of_busyMode hm p
  exact (step_tok_head hr (busy_of_tokenMode hmode) hdec).trans (exec_of_endsInput hi hmode)

/-- In the unreachable mode of R53 the step of an `END` token is refused. -/
theorem step_endOfInput_head_of_unreachable (hr : Offer.reset ∉ rest) (ho : s.op = .enc) (hp : s.phase = .skip)
    (p : Byte) : step { s with offers := .tok (tokWord .endOfInput p) :: rest } = .refused .wrongMode := by
  have hdec : decode s.op s.phase (.tok (tokWord .endOfInput p)) = .error .unreachableMode := by
    rw [ho, hp, decode_tokWord_endOfInput, byMode]
  exact step_tok_head_of_error hr ((portOpen_tok_iff _ _).2 (by simp [hp])) hdec

/-- In the skip stage the step of a `DATA` token discards one header byte (R53, R101). -/
theorem step_data_head_of_skip (hr : Offer.reset ∉ rest) (ho : s.op = .dec) (hp : s.phase = .skip) (p : Byte) :
    step { s with offers := .tok (tokWord .data p) :: rest } = .next (skipHeaderByte { s with offers := rest }) := by
  have hdec : decode s.op s.phase (.tok (tokWord .data p)) = .ok (.decSkipData p) := by
    rw [ho, hp, decode_tokWord_data, byMode]
  have hopen : portOpen s.phase (.tok (tokWord .data p)) = true := (portOpen_tok_iff _ _).2 (by simp [hp])
  exact (step_tok_head hr hopen hdec).trans (exec_decSkipData_of_skip p ho hp)

end

/-! ### The obligations -/

/-- Settles O6: each kind but the reserved one is read from its own column of the map, which has an operation in the
three busy modes alone. -/
theorem tokenMapFollowsTheMode : Obligations.TokenMapFollowsTheMode := by
  refine ⟨fun _ _ => ⟨rfl, rfl⟩, fun phase => ⟨portOpen_cmd_iff phase, portOpen_tok_iff phase⟩, ?_⟩
  intro kind p w
  refine ⟨?_, ?_, ?_, ?_, fun hkind => ?_⟩
  · rintro rfl
    exact ⟨decode_tokWord_data .enc .body p, decode_tokWord_data .dec .skip p, decode_tokWord_data .dec .body p⟩
  · rintro rfl
    exact ⟨decode_tokWord_endOfInput .enc .body p, decode_tokWord_endOfInput .dec .skip p,
      decode_tokWord_endOfInput .dec .body p⟩
  · rintro rfl
    exact ⟨decode_tokWord_err .enc .body p, decode_tokWord_err .dec .skip p, decode_tokWord_err .dec .body p⟩
  · rintro rfl op phase
    exact decode_tokWord_reserved op phase p
  · have hw : tokKind w ≠ .reserved := mt (tokKind_append_eq_reserved_iff kind p).1 hkind
    obtain ⟨e, k, d, hcol⟩ := decode_tok_eq_byMode hw
    exact ⟨fun op phase hp => (hcol op phase).trans (byMode_of_notBusy hp op e k d), hcol .enc .skip⟩

/-- Settles O10: the decoder reads the kind alone, and the reserved operation has no other answer than the refusal. -/
theorem reservedTokenIsRefused : Obligations.ReservedTokenIsRefused := by
  refine ⟨fun _ _ => rfl, fun w op phase hw => ⟨tokPayload w, ?_, rfl⟩⟩
  exact decode_tok_of_reserved ((tokKind_eq_reserved_iff w).2 hw) op phase

/-- Settles O11: what the step of an `END` or a skipped `DATA` token answers does not name the payload. -/
theorem ignoredPayloadsMakeNoDifference : Obligations.IgnoredPayloadsMakeNoDifference := by
  refine ⟨fun p q s => ⟨rfl, rfl, rfl, rfl⟩, fun p q s rest hr hbusy => ?_, fun p s rest hr ho hp hcnt => ?_⟩
  · obtain hm | ⟨ho, hp⟩ := busyMode_or_unreachable hbusy
    · exact (step_endOfInput_head_of_busyMode hr hm p).trans (step_endOfInput_head_of_busyMode hr hm q).symm
    · exact (step_endOfInput_head_of_unreachable hr ho hp p).trans
        (step_endOfInput_head_of_unreachable hr ho hp q).symm
  · exact ⟨_, step_data_head_of_skip hr ho hp p, by simp, skipHeaderByte_hcnt_toNat hcnt⟩

end Sys2Proof.Machine
end

section
/-!
PROOFS. The datapath (40_datapath_primitives.md): the adder and the subtractor as mutually inverse permutations of the
bytes (R70 to R72), and the two counters (R73, section 4).
-/

namespace Sys2Proof.Machine

/-! ### The adder and the subtractor -/

/-- Subtraction is addition of the complement and a carry in of one (R71). -/
theorem sub8_eq_add8_complement (a b : Byte) : sub8 a b = add8 (add8 a (255 - b)) 1 := by
  have hones : (255 : Byte) = -1 := rfl
  rw [sub8_eq, add8_eq, add8_eq, hones]
  ring

/-- The subtractor takes back what the adder added (R72). -/
@[simp] theorem sub8_add8_cancel (a k : Byte) : sub8 (add8 a k) k = a := by
  rw [add8_eq, sub8_eq, add_sub_cancel_right]

/-- The adder gives back what the subtractor took (R72). -/
@[simp] theorem add8_sub8_cancel (c k : Byte) : add8 (sub8 c k) k = c := by
  rw [sub8_eq, add8_eq, sub_add_cancel]

/-! ### The counters -/

/-- One more step of the key index is one more step modulo 37 (R73). -/
theorem nextk_toNat_of_mod {k : BitVec 6} {n : Nat} (h : k.toNat = n % 37) : (nextk k).toNat = (n + 1) % 37 := by
  rw [nextk_toNat (by omega)]
  split <;> omega

/-- From 0 the key index counts its steps modulo 37 (R73). -/
theorem nextk_iterate_toNat (n : Nat) : (nextk^[n] 0).toNat = n % 37 := by
  induction n with
  | zero => rfl
  | succ n ih =>
    rw [Function.iterate_succ_apply']
    exact nextk_toNat_of_mod ih

/-! ### The obligations -/

/-- Settles O5: the closed form of `NEXTK`'s iterates is by induction on their number; the single steps are the
counters' own equations. -/
theorem countersStepAsTheRulesSay : Obligations.CountersStepAsTheRulesSay := by
  refine ⟨fun k hk => ?_, rfl, nextk_iterate_toNat, fun h hh => ?_⟩
  · rw [nextk_toNat hk.le, if_neg hk.ne]
  · have hstep := hnext_toNat hh
    omega

/-- Settles O2: the adder is the addition of 8-bit words. -/
theorem add8IsSumModulo256 : Obligations.Add8IsSumModulo256 := by
  refine ⟨fun a b => ?_, fun a b => ?_, fun a => ?_, by decide⟩
  · rw [add8_eq, BitVec.toNat_add]
  · rw [add8_eq, add8_eq, add_comm]
  · rw [add8_eq]
    exact add_zero a

/-- Settles O3: the subtractor is the subtraction of 8-bit words, which borrows 256 when the second operand is the
larger. -/
theorem sub8IsDifferenceModulo256 : Obligations.Sub8IsDifferenceModulo256 := by
  refine ⟨fun a b hle => ?_, fun a b hlt => ?_, fun a => ⟨?_, ?_⟩, fun a b => ?_, sub8_eq_add8_complement, by decide⟩
  · rw [sub8_eq, BitVec.toNat_sub_of_le hle]
  · rw [sub8_eq, BitVec.toNat_sub_of_lt hlt]
    omega
  · rw [sub8_eq]
    exact sub_zero a
  · rw [sub8_eq]
    exact sub_self a
  · rw [sub8_eq, sub8_eq, sub8_eq]
    exact ((zero_sub (b - a)).trans (neg_sub b a)).symm

/-- Settles O4: the two cancellation laws make each function the other's two-sided inverse. -/
theorem adderAndSubtractorAreInverse : Obligations.AdderAndSubtractorAreInverse := by
  intro k
  have hsub : Function.LeftInverse (sub8 · k) (add8 · k) := (sub8_add8_cancel · k)
  have hadd : Function.RightInverse (sub8 · k) (add8 · k) := (add8_sub8_cancel · k)
  exact ⟨hsub, hadd, ⟨hsub.injective, hadd.surjective⟩, hadd.injective, hsub.surjective⟩

end Sys2Proof.Machine
end

section
/-!
PROOFS. Commands and the result (41_commands.md): what `ENC`, `DEC` and the observation do (R82, R83, R86), and the
transition table of R81, one lemma per kind of transfer.
-/

namespace Sys2Proof

/-! ### The parts of a token word -/

/-- A token word is its kind and its payload (R52). -/
theorem exists_eq_tokWord (w : TokWord) : ∃ k p, w = tokWord k p := by
  obtain ⟨k, hk⟩ : ∃ k, tokKindCode k = w.extractLsb' 8 2 := by
    generalize w.extractLsb' 8 2 = c
    exact ⟨tokKind (c ++ 0#8), by revert c; decide⟩
  have hw : w.extractLsb' (0 + 8) 2 ++ w.extractLsb' 0 8 = w :=
    (BitVec.extractLsb'_append_extractLsb'_eq_extractLsb' rfl).trans BitVec.extractLsb'_eq_self
  exact ⟨k, tokPayload w, by rw [tokWord, hk]; exact hw.symm⟩

end Sys2Proof

namespace Sys2Proof.Machine

/-! ### The commands -/

/-- In a busy phase a command is not accepted (R21). -/
theorem acceptCommand_of_busy {s : State} (t : State) (h : s.phase = .skip ∨ s.phase = .body) :
    acceptCommand s t = .refused .commandWhileBusy := by
  obtain hp | hp := h <;> simp [acceptCommand, hp, Phase.busy]

/-! ### The observation -/

/-- Reading a range of bytes that all have a value succeeds. -/
theorem exists_readRange_of_isSome {m : Memory} {a n : Nat} (h : ∀ i, i < n → (Memory.read m (a + i)).isSome) :
    ∃ bs, Memory.readRange m a n = some bs := by
  induction n generalizing a with
  | zero => exact ⟨[], rfl⟩
  | succ n ih =>
    obtain ⟨b, hb⟩ := Option.isSome_iff_exists.1 (h 0 n.succ_pos)
    obtain ⟨bs, hbs⟩ := ih (a := a + 1) fun i hi => by
      have := h (i + 1) (by omega)
      rwa [Nat.add_assoc, Nat.add_comm 1 i]
    exact ⟨b :: bs, by simp_all [Memory.readRange]⟩

/-- Reading the whole buffer answers the bytes it holds (R33). -/
theorem readRange_of_bufferIs {s : State} {data : List Byte} (h : s.bufferIs data) :
    Memory.readRange s.obuf 0 s.olen = some data :=
  (readRange_eq_some_iff _ _ _ _).2 (by simpa using h)

/-- Before the end of a transaction there is no result (R23, R86). -/
theorem exec_result_of_not_done {s : State} (h : s.phase = .idle ∨ s.phase = .skip ∨ s.phase = .body) :
    exec .result s = .refused .noResult := by
  obtain hp | hp | hp := h <;> simp [exec, execResult, hp]

/-- A second observation gives the same (R86). -/
theorem exec_result_again {s t : State} (h : exec .result s = .next t) : exec .result t = .next t := by
  obtain ⟨hp, data, hd, rfl⟩ | ⟨hp, rfl⟩ := exec_result_next_cases h
  · exact exec_result_of_doneOk (s := showResult s (okRecord s data)) hp hd
  · exact exec_result_of_doneErr (s := showResult s (errRecord s)) hp

/-- The observation draws no free value. -/
theorem exec_result_draws {s t : State} (h : exec .result s = .next t) : t.draws = s.draws := by
  obtain ⟨-, data, -, rfl⟩ | ⟨-, rfl⟩ := exec_result_next_cases h <;> rfl

/-! ### The phase an outcome leaves -/

/-- The phase an outcome leaves, if it is a next state. -/
def nextPhase (out : Host.Outcome State Fault Refusal) : Option Phase := (nextState? out).map State.phase

@[simp] theorem nextPhase_next (t : State) : nextPhase (.next t) = some t.phase := rfl

@[simp] theorem nextPhase_refused (r : Refusal) : nextPhase (.refused r) = none := rfl

theorem nextPhase_eq_some_iff (out : Host.Outcome State Fault Refusal) (p : Phase) :
    nextPhase out = some p ↔ ∃ t, out = .next t ∧ t.phase = p := by
  cases out <;> simp [nextPhase, nextState?]

/-- The invariants leave a busy phase no mode but the three of R53. -/
theorem busyMode_of_inv {s : State} (h : s.Inv) (hbusy : s.phase.busy = true) : s.busyMode := by
  cases hp : s.phase with
  | idle | doneOk | doneErr => simp [hp, Phase.busy] at hbusy
  | skip =>
    obtain ⟨ho, -⟩ := h.inSkip hp
    simp [State.busyMode, ho, hp]
  | body => cases ho : s.op <;> simp [State.busyMode, ho, hp]

theorem phase_of_busyMode {s : State} (h : s.busyMode) : s.phase = .skip ∨ s.phase = .body := by
  obtain ⟨-, hp⟩ | ⟨-, hp⟩ | ⟨-, hp⟩ := h <;> simp [hp]

/-! ### What a token in a busy mode does -/

/-- In a busy mode an `ERR` word stands for the `ERR` operation of that mode (R53). -/
theorem decode_err_of_busyMode {s : State} (h : s.busyMode) (c : Byte) :
    ∃ i, decode s.op s.phase (.tok (tokWord .err c)) = .ok i ∧ raisesReadError i = true ∧
      tokenMode i = some (s.op, s.phase) := by
  rw [decode_tokWord_err]
  obtain ⟨hi, hmode⟩ | ⟨hi, hmode⟩ | ⟨hi, hmode⟩ := byMode_of_busyMode h (.encErr c) (.decSkipErr c) (.decErr c) <;>
    exact ⟨_, hi, rfl, congrArg some hmode.symm⟩

/-- In its mode an `ERR` operation makes the error entry (R93, R103, R106). -/
theorem exec_of_raisesReadError {i : Instr} {s : State} (hi : raisesReadError i = true)
    (hm : tokenMode i = some (s.op, s.phase)) : ∃ c, exec i s = .next (raiseReadError c s) := by
  cases i with
  | encErr c | decSkipErr c | decErr c =>
    obtain ⟨hop, hphase⟩ := Prod.mk.inj (Option.some.inj hm)
    exact ⟨c, (acceptToken_next_iff _ _ s _ _ rfl).2 ⟨hop.symm, hphase.symm, rfl⟩⟩
  | _ => cases hi

/-- In an encode body a `DATA` token appends one transformed byte (R91). -/
theorem exec_encData_of_body {s : State} (b : Byte) (ho : s.op = .enc) (hp : s.phase = .body) :
    exec (.encData b) s = .next (emitContent s (add8 b (keyAt s.kidx))) :=
  (acceptToken_next_iff _ _ s _ _ rfl).2 ⟨ho, hp, rfl⟩

/-- In a decode body a `DATA` token appends one transformed byte (R104). -/
theorem exec_decData_of_body {s : State} (b : Byte) (ho : s.op = .dec) (hp : s.phase = .body) :
    exec (.decData b) s = .next (emitContent s (sub8 b (keyAt s.kidx))) :=
  (acceptToken_next_iff _ _ s _ _ rfl).2 ⟨ho, hp, rfl⟩

/-- Discarding a byte leaves the skip stage with the 123rd alone (R101). -/
theorem skipHeaderByte_phase (s : State) :
    (skipHeaderByte s).phase = if s.hcnt.toNat = 122 then .body else s.phase := by
  have hiff : s.hcnt.toNat = 122 ↔ s.hcnt = 122 := BitVec.toNat_inj (y := 122)
  by_cases hlast : s.hcnt = 122
  · rw [skipHeaderByte_last hlast, if_pos (hiff.2 hlast)]
  · rw [skipHeaderByte_counts hlast, if_neg (mt hiff.1 hlast)]

/-! ### The table of R81, by the kind of the transfer -/

/-- The transfer stands for an instruction that moves `PHASE` as the table lists: to the phase of its row, or nowhere
where it has none. -/
abbrev MovesByTheTable (s : State) (o : Offer) : Prop :=
  ∃ i, decode s.op s.phase o = .ok i ∧ nextPhase (exec i s) = phaseAfter s.phase s.hcnt.toNat o

theorem reset_movesByTheTable (s : State) : MovesByTheTable s .reset := ⟨.reset, rfl, rfl⟩

theorem cmd_movesByTheTable {s : State} (w : CmdWord) (h : s.notBusy) : MovesByTheTable s (.cmd w) := by
  obtain ⟨t, ht, hphase⟩ := exec_decodeCmd_of_notBusy w h
  refine ⟨decodeCmd w, rfl, ?_⟩
  simp only [List.mem_cons, List.not_mem_nil, or_false] at h
  rw [ht, nextPhase_next, hphase, apply_ite some]
  obtain hp | hp | hp := h <;> rw [hp] <;> rfl

theorem result_movesByTheTable {s : State} (hinv : s.Inv) (h : s.phase.done = true) :
    MovesByTheTable s .result := by
  refine ⟨.result, rfl, ?_⟩
  cases hp : s.phase with
  | idle | skip | body => simp [hp, Phase.done] at h
  | doneOk =>
    have hfilled := hinv.filled (by simp [hp])
    obtain ⟨data, hd⟩ := exists_readRange_of_isSome (m := s.obuf) (a := 0) (n := s.olen) (by simpa using hfilled)
    simp [exec_result_of_doneOk hp hd, hp, phaseAfter]
  | doneErr => simp [exec_result_of_doneErr hp, hp, phaseAfter]

theorem data_movesByTheTable {s : State} (b : Byte) (h : s.busyMode) :
    MovesByTheTable s (.tok (tokWord .data b)) := by
  obtain ⟨ho, hp⟩ | ⟨ho, hp⟩ | ⟨ho, hp⟩ := h
  · exact ⟨.encData b, by simp [ho, hp, byMode], by simp [exec_encData_of_body b ho hp, hp, phaseAfter]⟩
  · refine ⟨.decSkipData b, by simp [ho, hp, byMode], ?_⟩
    rw [exec_decSkipData_of_skip b ho hp, nextPhase_next, skipHeaderByte_phase, apply_ite some]
    simp [hp, phaseAfter]
  · exact ⟨.decData b, by simp [ho, hp, byMode], by simp [exec_decData_of_body b ho hp, hp, phaseAfter]⟩

theorem endOfInput_movesByTheTable {s : State} (p : Byte) (h : s.busyMode) :
    MovesByTheTable s (.tok (tokWord .endOfInput p)) := by
  obtain ⟨i, hdec, hi, hmode⟩ := decode_endOfInput_of_busyMode h p
  refine ⟨i, hdec, ?_⟩
  rw [exec_of_endsInput hi hmode]
  obtain hp | hp := phase_of_busyMode h <;> simp [hp, phaseAfter]

theorem err_movesByTheTable {s : State} (c : Byte) (h : s.busyMode) :
    MovesByTheTable s (.tok (tokWord .err c)) := by
  obtain ⟨i, hdec, hi, hmode⟩ := decode_err_of_busyMode h c
  obtain ⟨c', hexec⟩ := exec_of_raisesReadError hi hmode
  refine ⟨i, hdec, ?_⟩
  rw [hexec]
  obtain hp | hp := phase_of_busyMode h <;> simp [hp, phaseAfter]

theorem reserved_movesByTheTable {s : State} (p : Byte) (h : s.busyMode) :
    MovesByTheTable s (.tok (tokWord .reserved p)) := by
  refine ⟨.tokReserved p, decode_tokWord_reserved _ _ p, ?_⟩
  have hexec : exec (.tokReserved p) s = .refused .reservedTokenKind := rfl
  obtain hp | hp := phase_of_busyMode h <;> simp [hexec, hp, phaseAfter]

/-- A token in a busy mode, by its kind (R52). -/
theorem tok_movesByTheTable {s : State} (w : TokWord) (h : s.busyMode) : MovesByTheTable s (.tok w) := by
  obtain ⟨k, p, rfl⟩ := exists_eq_tokWord w
  cases k with
  | data => exact data_movesByTheTable p h
  | endOfInput => exact endOfInput_movesByTheTable p h
  | err => exact err_movesByTheTable p h
  | reserved => exact reserved_movesByTheTable p h

/-- Under the invariants every transfer at an open port moves `PHASE` as the table lists (R81). -/
theorem movesByTheTable_of_open {s : State} {o : Offer} (hinv : s.Inv) (hopen : portOpen s.phase o = true) :
    MovesByTheTable s o := by
  cases o with
  | cmd w => exact cmd_movesByTheTable w ((portOpen_cmd_iff s.phase w).1 hopen)
  | tok w => exact tok_movesByTheTable w (busyMode_of_inv hinv hopen)
  | result => exact result_movesByTheTable hinv hopen
  | reset => exact reset_movesByTheTable s

/-- The step executes the instruction its transfer stands for. -/
theorem step_of_nextTransfer {s : State} {o : Offer} {rest : List Offer} {i : Instr}
    (hnext : nextTransfer s.phase s.offers = some (o, rest)) (hdec : decode s.op s.phase o = .ok i) :
    step s = exec i { s with offers := rest } := by
  simp [step, hnext, hdec]

/-! ### The obligations -/

/-- Settles O33: the next transfer is at an open port, where each kind of transfer moves `PHASE` by its row. -/
theorem phaseMovesExactlyByTheTable : Obligations.PhaseMovesExactlyByTheTable := by
  intro s o rest p hinv hnext
  obtain ⟨-, -, -, -, hopen, -⟩ := nextTransfer_some hnext
  obtain ⟨i, hdec, hphase⟩ : MovesByTheTable { s with offers := rest } o :=
    movesByTheTable_of_open (inv_withOffers rest hinv) hopen
  rw [← nextPhase_eq_some_iff, step_of_nextTransfer hnext hdec, hphase]

/-- Settles O14: the record is that of the phase; the observation writes the port `RES` alone, so it can be repeated. -/
theorem resultShowsTheBufferOrTheError : Obligations.ResultShowsTheBufferOrTheError := by
  intro s
  refine ⟨fun hp data hdata => ?_, fun hp => ?_, exec_result_of_not_done, fun hinv hp ho => ?_⟩
  · have h := exec_result_of_doneOk hp (readRange_of_bufferIs hdata)
    exact ⟨_, h, exec_result_again h, rfl, exec_result_keepsCore h, exec_offers h, exec_result_draws h⟩
  · have h := exec_result_of_doneErr hp
    exact ⟨_, h, exec_result_again h, rfl, exec_result_keepsCore h, exec_offers h, exec_result_draws h⟩
  · obtain ⟨hlen, -⟩ := hinv.headerEmitted ho (.inr hp)
    exact hlen

/-- Settles O12: the registers and the frame are the fields of `startEncode`, whose buffer reads as the header ROM. -/
theorem encStartsAnEncodeTransaction : Obligations.EncStartsAnEncodeTransaction := by
  refine fun s => ⟨fun hidle => ?_, acceptCommand_of_busy _⟩
  refine ⟨startEncode s, exec_enc_of_notBusy hidle, rfl, rfl, rfl, rfl, rfl, fun a _ => read_headerImage a,
    fun a ha => ?_, rfl, rfl, rfl, rfl⟩
  exact (read_headerImage a).trans (List.getElem?_eq_none ha)

/-- Settles O13: the registers and the frame are the fields of `startDecode`, whose buffer holds no byte. -/
theorem decArmsTheSkipStage : Obligations.DecArmsTheSkipStage := by
  refine fun s => ⟨fun hidle => ?_, acceptCommand_of_busy _⟩
  exact ⟨startDecode s, exec_dec_of_notBusy hidle, rfl, rfl, rfl, rfl, rfl, read_nil, rfl, rfl, rfl, rfl⟩

end Sys2Proof.Machine
end

section
/-!
PROOFS. The encoder (42_encoder.md): the content byte (R91), the end of the input (R92) and the read failure (R93) in an
encode body, with the observation that follows each end.
-/

namespace Sys2Proof.Machine

/-! ### One content byte -/

/-- The adder's result as a number: the carry out is dropped (R70). -/
theorem add8_toNat (a b : Byte) : (add8 a b).toNat = (a.toNat + b.toNat) % 256 := by
  rw [add8_eq, BitVec.toNat_add]

/-- A content byte is stored at index `OLEN` (R91, R104). -/
theorem read_emitContent_olen (s : State) (v : Byte) : Memory.read (emitContent s v).obuf s.olen = some v :=
  read_write_same s.obuf s.olen v

/-- A content byte leaves every other index of the buffer alone (R91, R104). -/
theorem read_emitContent_of_ne {s : State} {a : Nat} (v : Byte) (h : a ≠ s.olen) :
    Memory.read (emitContent s v).obuf a = Memory.read s.obuf a :=
  read_write_other s.obuf v h

/-! ### The two ends of an encode body -/

/-- In an encode body an `END` token ends the transaction, whatever its payload (R92). -/
theorem exec_encEnd_of_body {s : State} (p : Byte) (ho : s.op = .enc) (hp : s.phase = .body) :
    exec (.encEnd p) s = .next (endOfInput s) :=
  exec_of_endsInput rfl (by rw [ho, hp]; rfl)

/-- In an encode body an `ERR` token makes the error entry with its own cause (R93). -/
theorem exec_encErr_of_body {s : State} (c : Byte) (ho : s.op = .enc) (hp : s.phase = .body) :
    exec (.encErr c) s = .next (raiseReadError c s) :=
  (acceptToken_next_iff _ _ s _ _ rfl).2 ⟨ho, hp, rfl⟩

/-! ### The observation after an end -/

/-- After the end of the input the host observes the buffer as it stood (R86, R92, R105). -/
theorem exec_result_endOfInput {s : State} {data : List Byte} (h : s.bufferIs data) :
    exec .result (endOfInput s) = .next (showResult (endOfInput s) (okRecord s data)) :=
  exec_result_of_doneOk rfl (readRange_of_bufferIs h)

/-- After the error entry the host observes its cause on the side of `OP`, and no buffer (R86, R133). -/
theorem exec_result_raiseReadError (c : Byte) (s : State) :
    exec .result (raiseReadError c s) = .next (showResult (raiseReadError c s)
      { ok := false, kind := s.op, cause := some c, len := 0, data := [] }) :=
  exec_result_of_doneErr rfl

/-! ### The obligations -/

/-- Settles O17: the stored byte is the adder's, and inside 0..36 its second operand is the ROM's byte and the key index
steps as R73 says; the frame is the fields of `emitContent`. -/
theorem encDataAppendsTheSum : Obligations.EncDataAppendsTheSum := by
  intro s b ho hp
  have hread := read_emitContent_olen s (add8 b (keyAt s.kidx))
  refine ⟨_, exec_encData_of_body b ho hp, rfl, hread, fun hk => ⟨?_, nextk_toNat hk⟩,
    fun a => read_emitContent_of_ne _, rfl, rfl, rfl, rfl, rfl, rfl, rfl⟩
  exact ⟨keyAt s.kidx, _, keyAt_eq hk, hread, add8_toNat b (keyAt s.kidx)⟩

/-- Settles O18: `endOfInput` writes `PHASE` alone, so the record shows the buffer as it stood. -/
theorem encEndCompletes : Obligations.EncEndCompletes := by
  intro s p ho hp
  refine ⟨endOfInput s, exec_encEnd_of_body p ho hp, rfl, rfl, rfl, rfl, rfl, rfl, fun _ => rfl, ⟨rfl, rfl, rfl⟩,
    fun data hdata => ⟨_, exec_result_endOfInput hdata, ?_⟩⟩
  rw [showResult_resPort, okRecord, ho]

/-- Settles O19: the registers and the frame are the fields of `raiseReadError`, whose buffer holds no byte and whose
record is on the side of `OP`. -/
theorem encErrFailsTheTransaction : Obligations.EncErrFailsTheTransaction := by
  intro s c ho hp
  refine ⟨raiseReadError c s, exec_encErr_of_body c ho hp, rfl, rfl, rfl, read_nil, rfl, rfl, rfl, ⟨rfl, rfl, rfl⟩,
    _, exec_result_raiseReadError c s, ?_⟩
  rw [showResult_resPort, ho]

end Sys2Proof.Machine
end

section
/-!
PROOFS. The decoder (43_decoder.md): the header byte (R101), the end of the input (R102) and the read failure (R103) in
the skip stage, and their counterparts in a decode body (R104 to R106).
-/

namespace Sys2Proof.Machine

/-! ### The operations -/

/-- The subtractor's result as a number: the borrow out is dropped (R71). -/
theorem sub8_toNat (a b : Byte) : (sub8 a b).toNat = (a.toNat + 256 - b.toNat) % 256 := by
  rw [sub8_eq, BitVec.toNat_sub]
  omega

/-- Any byte but the 123rd leaves `PHASE` alone (R101). -/
theorem skipHeaderByte_phase_of_ne {s : State} (h : s.hcnt ≠ 122) : (skipHeaderByte s).phase = s.phase := by
  rw [skipHeaderByte_counts h]

/-- In the skip stage an `END` token ends the transaction, whatever its payload (R102). -/
theorem exec_decSkipEnd_of_skip {s : State} (p : Byte) (ho : s.op = .dec) (hp : s.phase = .skip) :
    exec (.decSkipEnd p) s = .next (endOfInput s) :=
  exec_of_endsInput rfl (by rw [ho, hp]; rfl)

/-- In a decode body an `END` token ends the transaction, whatever its payload (R105). -/
theorem exec_decEnd_of_body {s : State} (p : Byte) (ho : s.op = .dec) (hp : s.phase = .body) :
    exec (.decEnd p) s = .next (endOfInput s) :=
  exec_of_endsInput rfl (by rw [ho, hp]; rfl)

/-- In the skip stage an `ERR` token makes the error entry with its own cause (R103). -/
theorem exec_decSkipErr_of_skip {s : State} (c : Byte) (ho : s.op = .dec) (hp : s.phase = .skip) :
    exec (.decSkipErr c) s = .next (raiseReadError c s) :=
  (acceptToken_next_iff _ _ s _ _ rfl).2 ⟨ho, hp, rfl⟩

/-- In a decode body an `ERR` token makes the error entry with its own cause (R106). -/
theorem exec_decErr_of_body {s : State} (c : Byte) (ho : s.op = .dec) (hp : s.phase = .body) :
    exec (.decErr c) s = .next (raiseReadError c s) :=
  (acceptToken_next_iff _ _ s _ _ rfl).2 ⟨ho, hp, rfl⟩

/-! ### The observation after an end of a decode transaction -/

/-- An empty buffer holds exactly no bytes. -/
theorem bufferIs_nil {s : State} (h : s.olen = 0) : s.bufferIs [] :=
  ⟨h.symm, fun a ha => absurd ha (by omega)⟩

/-- After the end of a decode input the record is decode-side and shows the buffer as it stood (R54, R102, R105). -/
theorem exists_result_endOfInput_of_dec {s : State} {data : List Byte} (ho : s.op = .dec) (h : s.bufferIs data) :
    ∃ u, exec .result (endOfInput s) = .next u ∧
      u.resPort = some { ok := true, kind := .dec, cause := none, len := s.olen, data := data } := by
  refine ⟨_, exec_result_endOfInput h, ?_⟩
  rw [showResult_resPort, okRecord, ho]

/-- After the error entry of a decode transaction the record is a decode-side error (R54, R103, R106). -/
theorem exists_result_raiseReadError_of_dec {s : State} (c : Byte) (ho : s.op = .dec) :
    ∃ u, exec .result (raiseReadError c s) = .next u ∧
      u.resPort = some { ok := false, kind := .dec, cause := some c, len := 0, data := [] } := by
  refine ⟨_, exec_result_raiseReadError c s, ?_⟩
  rw [showResult_resPort, ho]

/-! ### The obligations -/

/-- Settles O20: `skipHeaderByte` opens the body at count 122 and counts below it; it writes `HCNT` and `PHASE` alone. -/
theorem decSkipDataDiscardsAHeaderByte : Obligations.DecSkipDataDiscardsAHeaderByte := by
  intro s p ho hp
  refine ⟨skipHeaderByte s, exec_decSkipData_of_skip p ho hp, fun hlast => ?_,
    fun hcnt => skipHeaderByte_hcnt_toNat (by omega), fun hne => (skipHeaderByte_phase_of_ne hne).trans hp,
    skipHeaderByte_op s, skipHeaderByte_kidx s, skipHeaderByte_olen s, skipHeaderByte_errcause s, fun a => ?_,
    skipHeaderByte_offers s, skipHeaderByte_resPort s, skipHeaderByte_draws s⟩
  · rw [skipHeaderByte_last hlast]
    exact ⟨rfl, rfl⟩
  · rw [skipHeaderByte_obuf]

/-- Settles O21: `endOfInput` writes `PHASE` alone, and a buffer of length 0 is shown as the empty record. -/
theorem decSkipEndGivesTheEmptyBuffer : Obligations.DecSkipEndGivesTheEmptyBuffer := by
  intro s p ho hp
  refine ⟨endOfInput s, exec_decSkipEnd_of_skip p ho hp, rfl, rfl, rfl, rfl, rfl, rfl, fun _ => rfl, ⟨rfl, rfl, rfl⟩,
    fun hlen => ?_⟩
  simpa only [hlen] using exists_result_endOfInput_of_dec ho (bufferIs_nil hlen)

/-- Settles O22: the registers and the frame are the fields of `raiseReadError`, whose buffer holds no byte. -/
theorem decSkipErrFailsTheTransaction : Obligations.DecSkipErrFailsTheTransaction := by
  intro s c ho hp
  exact ⟨raiseReadError c s, exec_decSkipErr_of_skip c ho hp, rfl, rfl, rfl, read_nil, rfl, rfl, rfl, ⟨rfl, rfl, rfl⟩,
    exists_result_raiseReadError_of_dec c ho⟩

/-- Settles O23: the stored byte is the subtractor's, and inside 0..36 its second operand is the ROM's byte and the key
index steps as R73 says; the frame is the fields of `emitContent`. -/
theorem decDataAppendsTheDifference : Obligations.DecDataAppendsTheDifference := by
  intro s b ho hp
  have hread := read_emitContent_olen s (sub8 b (keyAt s.kidx))
  refine ⟨_, exec_decData_of_body b ho hp, rfl, hread, fun hk => ⟨?_, nextk_toNat hk⟩,
    fun a => read_emitContent_of_ne _, rfl, rfl, rfl, rfl, rfl, rfl, rfl⟩
  exact ⟨keyAt s.kidx, _, keyAt_eq hk, hread, sub8_toNat b (keyAt s.kidx)⟩

/-- Settles O24: `endOfInput` writes `PHASE` alone, so the record shows the buffer as it stood. -/
theorem decEndCompletes : Obligations.DecEndCompletes := by
  intro s p ho hp
  exact ⟨endOfInput s, exec_decEnd_of_body p ho hp, rfl, rfl, rfl, rfl, rfl, rfl, fun _ => rfl, ⟨rfl, rfl, rfl⟩,
    fun _ hdata => exists_result_endOfInput_of_dec ho hdata⟩

/-- Settles O25: the registers and the frame are the fields of `raiseReadError`, whose record is on the side of `OP`. -/
theorem decErrFailsTheTransaction : Obligations.DecErrFailsTheTransaction := by
  intro s c ho hp
  exact ⟨raiseReadError c s, exec_decErr_of_body c ho hp, rfl, rfl, rfl, read_nil, rfl, rfl, rfl, ⟨rfl, rfl, rfl⟩,
    exists_result_raiseReadError_of_dec c ho⟩

end Sys2Proof.Machine
end

section
/-!
PROOFS. The two whole-transaction functions (44_stream_laws.md): byte `i` of an output, the round trips (R113, R119),
the lengths (R115, R118), locality and prefixes (R120), and the key as it shows through (R117, R122).
-/

namespace Sys2Proof.Machine

/-! ### The key byte of a content position -/

/-- A key index that stands for a content position reads that position's key byte. -/
theorem keyAt_eq_keyOf {k : BitVec 6} {n : Nat} (h : k.toNat = n % 37) : keyAt k = keyOf n := by
  have hk : BitVec.ofNat 6 (n % keyLen) = k := by rw [keyLen, ← h, BitVec.ofNat_toNat, BitVec.setWidth_eq]
  rw [keyOf, hk]

/-- The key byte of a content position is the ROM's byte at that position modulo 37 (R31). -/
theorem keyRom_getElem?_mod (i : Nat) : keyRom[i % 37]? = some (keyOf i) := by
  have hk : (BitVec.ofNat 6 (i % keyLen)).toNat = i % 37 := by
    rw [BitVec.toNat_ofNat, keyLen]
    omega
  rw [← hk, keyOf]
  exact keyAt_eq (by omega)

/-- Positions alike modulo 37 meet the same key byte (R117). -/
theorem keyOf_congr {i j : Nat} (h : i % 37 = j % 37) : keyOf i = keyOf j := by
  rw [keyOf, keyOf, keyLen, h]

/-! ### The content bytes -/

theorem encContent_eq_mapIdx (i : Nat) (x : List Byte) :
    encContent i x = x.mapIdx fun j b => add8 b (keyOf (i + j)) := by
  induction x generalizing i with
  | nil => rfl
  | cons b x ih => simp [encContent, ih, List.mapIdx_cons, Nat.add_assoc, Nat.add_comm 1]

theorem decContent_eq_mapIdx (i : Nat) (y : List Byte) :
    decContent i y = y.mapIdx fun j b => sub8 b (keyOf (i + j)) := by
  induction y generalizing i with
  | nil => rfl
  | cons b y ih => simp [decContent, ih, List.mapIdx_cons, Nat.add_assoc, Nat.add_comm 1]

@[simp] theorem encContent_length (i : Nat) (x : List Byte) : (encContent i x).length = x.length := by
  rw [encContent_eq_mapIdx, List.length_mapIdx]

@[simp] theorem decContent_length (i : Nat) (y : List Byte) : (decContent i y).length = y.length := by
  rw [decContent_eq_mapIdx, List.length_mapIdx]

/-- Later content bytes do not change what earlier ones encode to (R120). -/
theorem encContent_append (i : Nat) (x y : List Byte) :
    encContent i (x ++ y) = encContent i x ++ encContent (i + x.length) y := by
  simp [encContent_eq_mapIdx, List.mapIdx_append, Nat.add_assoc, Nat.add_comm x.length]

/-- Later content bytes do not change what earlier ones decode to (R120). -/
theorem decContent_append (i : Nat) (x y : List Byte) :
    decContent i (x ++ y) = decContent i x ++ decContent (i + x.length) y := by
  simp [decContent_eq_mapIdx, List.mapIdx_append, Nat.add_assoc, Nat.add_comm x.length]

/-- Decoding takes back the key byte that encoding added at the same position (R72). -/
@[simp] theorem decContent_encContent (i : Nat) (x : List Byte) : decContent i (encContent i x) = x := by
  induction x generalizing i with
  | nil => rfl
  | cons b x ih => rw [encContent, decContent, sub8_add8_cancel, ih]

/-- Encoding gives back the key byte that decoding took at the same position (R72). -/
@[simp] theorem encContent_decContent (i : Nat) (y : List Byte) : encContent i (decContent i y) = y := by
  induction y generalizing i with
  | nil => rfl
  | cons b y ih => rw [decContent, encContent, add8_sub8_cancel, ih]

/-! ### The streams -/

@[simp] theorem encStream_nil : encStream [] = headerRom := List.append_nil headerRom

@[simp] theorem encStream_length (x : List Byte) : (encStream x).length = 123 + x.length := by
  rw [encStream, List.length_append, headerRom_length, encContent_length]

@[simp] theorem decStream_length (y : List Byte) : (decStream y).length = y.length - 123 := by
  rw [decStream, decContent_length, List.length_drop, headerLen]

/-- The bytes of an encoded stream before offset 123 are the header's (R114). -/
theorem encStream_getElem?_header (x : List Byte) {a : Nat} (h : a < 123) : (encStream x)[a]? = headerRom[a]? :=
  List.getElem?_append_left h

/-- Byte `123 + i` of an encoded stream (R110). -/
theorem encStream_getElem?_content (x : List Byte) (i : Nat) :
    (encStream x)[123 + i]? = x[i]?.map (add8 · (keyOf i)) := by
  rw [encStream, List.getElem?_append_right (by simp), encContent_eq_mapIdx, List.getElem?_mapIdx]
  simp

/-- Byte `i` of a decoded stream (R111). -/
theorem decStream_getElem? (y : List Byte) (i : Nat) : (decStream y)[i]? = y[123 + i]?.map (sub8 · (keyOf i)) := by
  rw [decStream, decContent_eq_mapIdx, List.getElem?_mapIdx, List.getElem?_drop, headerLen]
  simp

/-- The decoder sees the bytes after the first 123 alone (R119). -/
theorem decStream_append {h : List Byte} (hlen : h.length = 123) (c : List Byte) :
    decStream (h ++ c) = decContent 0 c := by
  rw [decStream, headerLen, List.drop_left' hlen]

/-- A stream no longer than the header has no content (R115). -/
theorem decStream_of_length_le {y : List Byte} (h : y.length ≤ 123) : decStream y = [] := by
  rw [decStream, headerLen, List.drop_eq_nil_of_le h, decContent]

/-- Re-encoding puts the constant header before the original content (R119). -/
theorem encStream_decStream (y : List Byte) : encStream (decStream y) = headerRom ++ y.drop 123 := by
  rw [encStream, decStream, encContent_decContent, headerLen]

/-- One more input byte is one more output byte (R91, R110). -/
theorem encStream_append_singleton (x : List Byte) (b : Byte) :
    encStream (x ++ [b]) = encStream x ++ [add8 b (keyOf x.length)] := by
  rw [encStream, encStream, encContent_append, Nat.zero_add, List.append_assoc, encContent, encContent]

/-- One more content byte is one more output byte (R104, R111). -/
theorem decContent_append_singleton (y : List Byte) (b : Byte) :
    decContent 0 (y ++ [b]) = decContent 0 y ++ [sub8 b (keyOf y.length)] := by
  rw [decContent_append, Nat.zero_add, decContent, decContent]

/-- A run of zero bytes encodes to the key itself (R122). -/
theorem encContent_replicate_zero : encContent 0 (List.replicate 37 0) = keyRom := by
  refine List.ext_getElem? fun i => ?_
  rw [encContent_eq_mapIdx, List.getElem?_mapIdx, List.getElem?_replicate, Nat.zero_add]
  by_cases hi : i < 37
  · have hkey := keyRom_getElem?_mod i
    rw [Nat.mod_eq_of_lt hi] at hkey
    simp [hi, hkey, add8_eq]
  · rw [if_neg hi, List.getElem?_eq_none (by simpa using hi), Option.map_none]

/-! ### The obligations -/

/-- Settles O51: an encoded stream is the header ROM before the content, whose byte `i` is the adder's with the key byte
of position `i`. -/
theorem encodedFileFormat : Obligations.EncodedFileFormat := by
  refine ⟨encStream_nil, fun x => ⟨encStream_length x, List.take_left' headerRom_length,
    fun a => encStream_getElem?_header x, fun i b hb => ?_⟩⟩
  refine ⟨keyOf i, add8 b (keyOf i), keyRom_getElem?_mod i, ?_, add8_toNat b (keyOf i)⟩
  rw [encStream_getElem?_content, hb, Option.map_some]

/-- Settles O52: the header is skipped, and the subtractor takes back what the adder added. -/
theorem decodeOfEncodedStreamIsIdentity : Obligations.DecodeOfEncodedStreamIsIdentity := by
  intro x
  rw [encStream, decStream_append headerRom_length, decContent_encContent]

/-- Settles O54: at position 0 the key byte is `0x6F`, so the input byte `0x91` wraps to 0, and 0 borrows back to it. -/
theorem wraparoundShowsThroughTheStreams : Obligations.WraparoundShowsThroughTheStreams := by
  refine ⟨by decide, by decide, by decide, ?_, ?_⟩
  · rw [encStream_getElem?_content [0x91] 0]
    decide
  · rw [decStream_append headerRom_length]
    decide

/-- Settles O55: byte `i` of the content meets the key byte of `i` modulo 37. -/
theorem keyPeriodIs37 : Obligations.KeyPeriodIs37 := by
  refine ⟨fun x i _ hx => ?_, fun b n i k hi hk => ?_, 0x6F, 0x64, by decide⟩
  · rw [Nat.add_assoc, encStream_getElem?_content, encStream_getElem?_content, hx,
      keyOf_congr (Nat.add_mod_right i 37).symm]
  · obtain rfl : keyOf i = k := by simpa [keyRom_getElem?_mod] using hk
    rw [encStream_getElem?_content, List.getElem?_replicate_of_lt hi, Option.map_some]

/-- Settles O56: the content functions keep the length. -/
theorem streamLengths : Obligations.StreamLengths :=
  fun x => ⟨encStream_length x, decStream_length x⟩

/-- Settles O57: the decoder drops the first 123 bytes unseen, and encoding what is left restores it behind the constant
header. -/
theorem decoderIgnoresTheHeaderContent : Obligations.DecoderIgnoresTheHeaderContent := by
  refine ⟨fun h h' c hh hh' => ?_, fun y _ => encStream_decStream y, fun y hy => ?_⟩
  · rw [decStream_append hh, decStream_append hh']
  · rw [decStream_of_length_le hy.le, encStream_nil]

/-- Settles O58: byte `i` of an output is a function of byte `i` of the content and of the key byte of `i`, and what is
appended to an input is appended to its output. -/
theorem transformIsLocalAndPrefixPreserving : Obligations.TransformIsLocalAndPrefixPreserving := by
  refine ⟨fun x y i j b hij hx hy => ?_, fun x y i j b hij hx hy => ?_, fun x y hxy => ⟨?_, ?_⟩⟩
  · rw [encStream_getElem?_content, encStream_getElem?_content, hx, hy, keyOf_congr hij]
  · rw [decStream_getElem?, decStream_getElem?, hx, hy, keyOf_congr hij]
  · obtain ⟨z, rfl⟩ := hxy
    rw [encStream, encStream, encContent_append, ← List.append_assoc]
    exact List.prefix_append _ _
  · obtain ⟨z, hz⟩ := hxy.drop headerLen
    rw [decStream, decStream, ← hz, decContent_append]
    exact List.prefix_append _ _

/-- Settles O59: the ciphertext byte is the plaintext byte plus the key byte, and a zero byte plus the key byte is the
key byte. -/
theorem keyShowsThrough : Obligations.KeyShowsThrough := by
  refine ⟨fun x i b hb => ⟨add8 b (keyOf i), keyOf i, ?_, keyRom_getElem?_mod i, ?_⟩, ?_⟩
  · rw [encStream_getElem?_content, hb, Option.map_some]
  · rw [add8_eq, sub8_eq, add_sub_cancel_left]
  · rw [encStream, encContent_replicate_zero]

end Sys2Proof.Machine
end

section
/-!
PROOFS. Whole transactions run by steps (44_stream_laws.md): a run depends on its transfers alone (R121), a completed
transaction results in `enc(x)` or `dec(y)` (R110, R111, R115), and a read failure discards everything (R112).
-/

namespace Sys2Proof.Machine

/-! ### Runs -/

theorem runSteps_succ {s t : State} (h : step s = .next t) (n : Nat) : runSteps (n + 1) s = runSteps n t := by
  simp only [runSteps, h]

/-- A run of at least one step begins with a step. -/
theorem runSteps_succ_next {n : Nat} {s u : State} (h : runSteps (n + 1) s = .next u) :
    ∃ t, step s = .next t ∧ runSteps n t = .next u := by
  unfold runSteps at h
  split at h
  · exact ⟨_, ‹_›, h⟩
  · cases h
  · cases h

/-- One more step is made from where the run stands. -/
theorem runSteps_succ_eq_step {n : Nat} {s t : State} (h : runSteps n s = .next t) : runSteps (n + 1) s = step t := by
  induction n generalizing s with
  | zero =>
    obtain rfl := Host.Outcome.next.inj h
    cases hs : step s <;> simp only [runSteps, hs]
  | succ n ih =>
    obtain ⟨u, hu, hrun⟩ := runSteps_succ_next h
    rw [runSteps_succ hu, ih hrun]

/-! ### Alike states that are offered the same stay alike -/

section
variable {s t : State}

theorem agree_withOffers (rest : List Offer) (h : agree s t) :
    agree { s with offers := rest } { t with offers := rest } :=
  ⟨h.phase, h.registers, h.cause⟩

/-- In `IDLE`, where alike states may differ in `OP`, no word's meaning depends on `OP` (R53). -/
theorem decode_idle (op op' : Op) (o : Offer) : decode op .idle o = decode op' .idle o := by
  cases o <;> rfl

/-- Alike states read a transfer alike. -/
theorem decode_agree (h : agree s t) (o : Offer) : decode s.op s.phase o = decode t.op t.phase o := by
  rw [← h.phase]
  by_cases hp : s.phase = .idle
  · rw [hp]
    exact decode_idle s.op t.op o
  · rw [agree_op h hp]

/-- Alike states that are offered the same make the same step. -/
theorem step_agree {s' : State} (h : agree s t) (hoffers : s.offers = t.offers) (hs : step s = .next s') :
    ∃ t', step t = .next t' ∧ agree s' t' ∧ s'.offers = t'.offers := by
  obtain ⟨o, rest, i, hnext, hdec, hexec⟩ := step_next_cases hs
  obtain ⟨t', ht, hagree⟩ := exec_agree (agree_withOffers rest h) hexec
  rw [h.phase, hoffers] at hnext
  refine ⟨t', (step_of_nextTransfer hnext (decode_agree h o ▸ hdec)).trans ht, hagree, ?_⟩
  rw [exec_offers hexec, exec_offers ht]

/-- Alike states that are offered the same make the same run. -/
theorem runSteps_agree {n : Nat} {s' : State} (h : agree s t) (hoffers : s.offers = t.offers)
    (hs : runSteps n s = .next s') :
    ∃ t', runSteps n t = .next t' ∧ agree s' t' ∧ s'.offers = t'.offers := by
  induction n generalizing s t with
  | zero =>
    obtain rfl := Host.Outcome.next.inj hs
    exact ⟨t, rfl, h, hoffers⟩
  | succ n ih =>
    obtain ⟨s₁, hs₁, hrun⟩ := runSteps_succ_next hs
    obtain ⟨t₁, ht₁, hagree, hoffers₁⟩ := step_agree h hoffers hs₁
    rw [runSteps_succ ht₁]
    exact ih hagree hoffers₁ hrun

/-- A command word leaves any two states that accept it alike (R24). -/
theorem exec_decodeCmd_agree (w : CmdWord) (hs : s.notBusy) (ht : t.notBusy) :
    ∃ s' t', exec (decodeCmd w) s = .next s' ∧ exec (decodeCmd w) t = .next t' ∧ agree s' t' := by
  by_cases hw : w = 0
  · have hi : decodeCmd w = .enc := if_pos hw
    exact hi ▸ ⟨_, _, exec_enc_of_notBusy hs, exec_enc_of_notBusy ht, agree_startEncode s t⟩
  · have hi : decodeCmd w = .dec := if_neg hw
    exact hi ▸ ⟨_, _, exec_dec_of_notBusy hs, exec_dec_of_notBusy ht, agree_startDecode s t⟩

/-- A command word at the head of the offers is the next transfer outside the busy phases (R21). -/
theorem step_cmd_head {w : CmdWord} {rest : List Offer} (hr : Offer.reset ∉ rest) (hs : s.notBusy)
    (hoffers : s.offers = .cmd w :: rest) : step s = exec (decodeCmd w) { s with offers := rest } :=
  step_head hoffers hr ((portOpen_cmd_iff _ _).2 hs) rfl

/-- The first step, made by a pending reset or by the command, forgets what the two states hold (R24, R136). -/
theorem step_agree_of_cmd {w : CmdWord} {os : List Offer} (hs : s.notBusy) (ht : t.notBusy)
    (hso : s.offers = .cmd w :: os) (hto : t.offers = .cmd w :: os) :
    ∃ s' t', step s = .next s' ∧ step t = .next t' ∧ agree s' t' ∧ s'.offers = t'.offers := by
  by_cases hr : Offer.reset ∈ os
  · have hmem : Offer.reset ∈ Offer.cmd w :: os := List.mem_cons_of_mem _ hr
    refine ⟨_, _, step_reset (hso ▸ hmem), step_reset (hto ▸ hmem), agree_resetEvent _ _, ?_⟩
    rw [resetEvent_offers, resetEvent_offers, hso, hto]
  · obtain ⟨s', t', hs', ht', hagree⟩ :=
      exec_decodeCmd_agree (s := { s with offers := os }) (t := { t with offers := os }) w hs ht
    refine ⟨s', t', (step_cmd_head hr hs hso).trans hs', (step_cmd_head hr ht hto).trans ht', hagree, ?_⟩
    rw [exec_offers hs', exec_offers ht']

end

/-! ### What the CORE holds in the course of a transaction -/

/-- The whole-transaction function of an operation: `enc` or `dec` (R110, R111). -/
def transform : Op → List Byte → List Byte
  | .enc => encStream
  | .dec => decStream

/-- The CORE has accepted the command and the `DATA` tokens of these bytes, and no more: one constructor for each
busy mode of R53. -/
inductive Consumed (s : State) : Op → List Byte → Prop where
  /-- The header and one byte for each input byte are in the buffer (R19 (b), R91). -/
  | encBody {x : List Byte} (op : s.op = .enc) (phase : s.phase = .body) (kidx : s.kidx.toNat = x.length % 37)
      (buffer : s.bufferIs (encStream x)) : Consumed s .enc x
  /-- Every byte so far was a header byte (R19 (a), R101). -/
  | decSkip {h : List Byte} (op : s.op = .dec) (phase : s.phase = .skip) (short : h.length < 123)
      (hcnt : s.hcnt.toNat = h.length) (kidx : s.kidx = 0) (olen : s.olen = 0) : Consumed s .dec h
  /-- One byte for each byte behind the header is in the buffer (R19 (b), R104). -/
  | decBody {h y : List Byte} (op : s.op = .dec) (phase : s.phase = .body) (header : h.length = 123)
      (kidx : s.kidx.toNat = y.length % 37) (buffer : s.bufferIs (decContent 0 y)) : Consumed s .dec (h ++ y)

section
variable {s : State} {op : Op} {x : List Byte} {rest : List Offer}

theorem Consumed.withOffers (h : Consumed s op x) (rest : List Offer) : Consumed { s with offers := rest } op x := by
  cases h with
  | encBody hop hphase hkidx hbuf => exact .encBody hop hphase hkidx hbuf
  | decSkip hop hphase hshort hhcnt hkidx holen => exact .decSkip hop hphase hshort hhcnt hkidx holen
  | decBody hop hphase hheader hkidx hbuf => exact .decBody hop hphase hheader hkidx hbuf

theorem Consumed.op_eq (h : Consumed s op x) : s.op = op := by
  cases h <;> assumption

theorem Consumed.busyMode (h : Consumed s op x) : s.busyMode := by
  cases h with
  | encBody hop hphase => exact .inl ⟨hop, hphase⟩
  | decSkip hop hphase => exact .inr (.inl ⟨hop, hphase⟩)
  | decBody hop hphase => exact .inr (.inr ⟨hop, hphase⟩)

/-- At every moment of a transaction the buffer holds the output of what was consumed so far (R16, R33). -/
theorem Consumed.bufferIs (h : Consumed s op x) : s.bufferIs (transform op x) := by
  cases h with
  | encBody _ _ _ hbuf => exact hbuf
  | decSkip _ _ hshort _ _ holen =>
    rw [transform, decStream_of_length_le hshort.le]
    exact bufferIs_nil holen
  | decBody _ _ hheader _ hbuf =>
    rw [transform, decStream_append hheader]
    exact hbuf

/-! ### The command -/

theorem consumed_startEncode (s : State) : Consumed (startEncode s) .enc [] := by
  refine .encBody rfl rfl rfl ?_
  rw [encStream_nil]
  exact ⟨rfl, fun a _ => read_headerImage a⟩

theorem consumed_startDecode (s : State) : Consumed (startDecode s) .dec [] :=
  .decSkip rfl rfl (by decide) rfl rfl rfl

/-- The step of the command of a transaction (R82, R83). -/
theorem step_cmdOffer (op : Op) (hr : Offer.reset ∉ rest) (hs : s.notBusy)
    (hoffers : s.offers = cmdOffer op :: rest) :
    ∃ t, step s = .next t ∧ Consumed t op [] ∧ t.offers = rest := by
  have hstep := step_cmd_head hr hs hoffers
  cases op with
  | enc => exact ⟨_, hstep.trans (exec_enc_of_notBusy hs), consumed_startEncode _, rfl⟩
  | dec => exact ⟨_, hstep.trans (exec_dec_of_notBusy hs), consumed_startDecode _, rfl⟩

/-! ### The data tokens -/

/-- A content byte lengthens the buffer by itself (R33). -/
theorem bufferIs_emitContent {data : List Byte} (h : s.bufferIs data) (v : Byte) :
    (emitContent s v).bufferIs (data ++ [v]) := by
  obtain ⟨hlen, hread⟩ := h
  refine ⟨by simp [hlen], fun a ha => ?_⟩
  obtain hlt | rfl := Nat.lt_succ_iff_lt_or_eq.1 ha
  · rw [read_emitContent_of_ne v hlt.ne, hread a hlt, List.getElem?_append_left (hlen ▸ hlt)]
  · rw [read_emitContent_olen, ← hlen, List.getElem?_concat_length]

/-- In an encode body a `DATA` token takes the transaction one content byte on (R91). -/
theorem consumed_emitContent_enc (b : Byte) (hop : s.op = .enc) (hphase : s.phase = .body)
    (hkidx : s.kidx.toNat = x.length % 37) (hbuf : s.bufferIs (encStream x)) :
    Consumed (emitContent s (add8 b (keyAt s.kidx))) .enc (x ++ [b]) := by
  refine .encBody hop hphase ?_ ?_
  · rw [List.length_append]
    exact nextk_toNat_of_mod hkidx
  · rw [encStream_append_singleton, keyAt_eq_keyOf hkidx]
    exact bufferIs_emitContent hbuf _

/-- In a decode body a `DATA` token takes the transaction one content byte on (R104). -/
theorem consumed_emitContent_dec {h y : List Byte} (b : Byte) (hop : s.op = .dec) (hphase : s.phase = .body)
    (hheader : h.length = 123) (hkidx : s.kidx.toNat = y.length % 37) (hbuf : s.bufferIs (decContent 0 y)) :
    Consumed (emitContent s (sub8 b (keyAt s.kidx))) .dec (h ++ y ++ [b]) := by
  rw [List.append_assoc]
  refine .decBody hop hphase hheader ?_ ?_
  · rw [List.length_append]
    exact nextk_toNat_of_mod hkidx
  · rw [decContent_append_singleton, keyAt_eq_keyOf hkidx]
    exact bufferIs_emitContent hbuf _

/-- In the skip stage a `DATA` token takes the transaction one header byte on; the 123rd opens the body (R101). -/
theorem consumed_skipHeaderByte {h : List Byte} (b : Byte) (hop : s.op = .dec) (hphase : s.phase = .skip)
    (hshort : h.length < 123) (hhcnt : s.hcnt.toNat = h.length) (hkidx : s.kidx = 0) (holen : s.olen = 0) :
    Consumed (skipHeaderByte s) .dec (h ++ [b]) := by
  have hlen : (h ++ [b]).length = h.length + 1 := by simp
  have hphase' := skipHeaderByte_phase s
  by_cases hlast : h.length = 122
  · rw [if_pos (hhcnt.trans hlast)] at hphase'
    have hbody : Consumed (skipHeaderByte s) .dec (h ++ [b] ++ []) :=
      .decBody (by simpa) hphase' (by omega) (by simp [hkidx]) (bufferIs_nil (by simpa))
    simpa using hbody
  · rw [if_neg (by omega), hphase] at hphase'
    have hcount := skipHeaderByte_hcnt_toNat (s := s) (by omega)
    exact .decSkip (by simpa) hphase' (by omega) (by omega) (by simpa) (by simpa)

/-- In every busy mode the port `IN` is open (R22). -/
theorem portOpen_tok_of_busyMode (h : s.busyMode) (w : TokWord) : portOpen s.phase (.tok w) = true :=
  (portOpen_tok_iff _ _).2 (by simpa using phase_of_busyMode h)

/-- In an encode body the step of a `DATA` token appends one transformed byte (R53, R91). -/
theorem step_data_head_of_encBody (hr : Offer.reset ∉ rest) (ho : s.op = .enc) (hp : s.phase = .body) (b : Byte) :
    step { s with offers := .tok (tokWord .data b) :: rest } =
      .next (emitContent { s with offers := rest } (add8 b (keyAt s.kidx))) := by
  have hdec : decode s.op s.phase (.tok (tokWord .data b)) = .ok (.encData b) := by
    rw [ho, hp, decode_tokWord_data, byMode]
  exact (step_tok_head hr (portOpen_tok_of_busyMode (.inl ⟨ho, hp⟩) _) hdec).trans (exec_encData_of_body b ho hp)

/-- In a decode body the step of a `DATA` token appends one transformed byte (R53, R104). -/
theorem step_data_head_of_decBody (hr : Offer.reset ∉ rest) (ho : s.op = .dec) (hp : s.phase = .body) (b : Byte) :
    step { s with offers := .tok (tokWord .data b) :: rest } =
      .next (emitContent { s with offers := rest } (sub8 b (keyAt s.kidx))) := by
  have hdec : decode s.op s.phase (.tok (tokWord .data b)) = .ok (.decData b) := by
    rw [ho, hp, decode_tokWord_data, byMode]
  exact (step_tok_head hr (portOpen_tok_of_busyMode (.inr (.inr ⟨ho, hp⟩)) _) hdec).trans (exec_decData_of_body b ho hp)

/-- A state is itself with the transfers it is offered. -/
theorem withOffers_eq_self (h : s.offers = rest) : { s with offers := rest } = s := by
  subst h
  rfl

/-- In every busy mode the step of a `DATA` token takes the transaction one byte on. -/
theorem Consumed.step_data {b : Byte} (h : Consumed s op x) (hr : Offer.reset ∉ rest)
    (hoffers : s.offers = .tok (tokWord .data b) :: rest) :
    ∃ t, step s = .next t ∧ Consumed t op (x ++ [b]) ∧ t.offers = rest := by
  rw [← withOffers_eq_self hoffers]
  cases h with
  | encBody hop hphase hkidx hbuf =>
    exact ⟨_, step_data_head_of_encBody hr hop hphase b,
      consumed_emitContent_enc (s := { s with offers := rest }) b hop hphase hkidx hbuf, rfl⟩
  | decSkip hop hphase hshort hhcnt hkidx holen =>
    exact ⟨_, step_data_head_of_skip hr hop hphase b,
      consumed_skipHeaderByte b hop hphase hshort hhcnt hkidx holen, skipHeaderByte_offers _⟩
  | decBody hop hphase hheader hkidx hbuf =>
    exact ⟨_, step_data_head_of_decBody hr hop hphase b,
      consumed_emitContent_dec (s := { s with offers := rest }) b hop hphase hheader hkidx hbuf, rfl⟩

theorem reset_notMem_dataOffers_append (y : List Byte) (hr : Offer.reset ∉ rest) :
    Offer.reset ∉ dataOffers y ++ rest := by
  simp [dataOffers, hr]

/-- A run over `DATA` tokens takes the transaction on by their bytes. -/
theorem Consumed.run_dataOffers {y : List Byte} (h : Consumed s op x) (hr : Offer.reset ∉ rest)
    (hoffers : s.offers = dataOffers y ++ rest) :
    ∃ t, runSteps y.length s = .next t ∧ Consumed t op (x ++ y) ∧ t.offers = rest := by
  induction y generalizing s x with
  | nil => exact ⟨s, rfl, by rwa [List.append_nil], hoffers⟩
  | cons b y ih =>
    obtain ⟨s₁, hstep, hconsumed, hoffers₁⟩ := h.step_data (reset_notMem_dataOffers_append y hr) hoffers
    obtain ⟨t, hrun, ht, hrest⟩ := ih hconsumed hoffers₁
    refine ⟨t, (runSteps_succ hstep y.length).trans hrun, ?_, hrest⟩
    rwa [List.append_cons]

/-- From any phase that accepts a command, a command and `DATA` tokens lead into the transaction, whatever came before
(R110 to R112). -/
theorem run_command_dataOffers (hr : Offer.reset ∉ rest) (hs : s.notBusy)
    (hoffers : s.offers = cmdOffer op :: (dataOffers x ++ rest)) :
    ∃ t, runSteps (x.length + 1) s = .next t ∧ Consumed t op x ∧ t.offers = rest := by
  obtain ⟨s₁, hstep, hconsumed, hoffers₁⟩ :=
    step_cmdOffer op (reset_notMem_dataOffers_append x hr) hs hoffers
  rw [runSteps_succ hstep]
  exact hconsumed.run_dataOffers hr hoffers₁

/-! ### The final token and the result -/

/-- In every busy mode the step of an `ERR` token makes the error entry with its cause (R53, R93, R103, R106). -/
theorem step_err_head_of_busyMode (hr : Offer.reset ∉ rest) (hm : s.busyMode) (c : Byte) :
    step { s with offers := .tok (tokWord .err c) :: rest } = .next (raiseReadError c { s with offers := rest }) := by
  have hopen := portOpen_tok_of_busyMode hm (tokWord .err c)
  have hdec := decode_tokWord_err s.op s.phase c
  obtain ⟨ho, hp⟩ | ⟨ho, hp⟩ | ⟨ho, hp⟩ := hm
  · exact (step_tok_head hr hopen (hdec.trans (by rw [ho, hp, byMode]))).trans (exec_encErr_of_body c ho hp)
  · exact (step_tok_head hr hopen (hdec.trans (by rw [ho, hp, byMode]))).trans (exec_decSkipErr_of_skip c ho hp)
  · exact (step_tok_head hr hopen (hdec.trans (by rw [ho, hp, byMode]))).trans (exec_decErr_of_body c ho hp)

/-- A transaction ends after its own transfers with the result of its whole-transaction function (R110, R111). -/
theorem run_transaction (hr : Offer.reset ∉ rest) (hs : s.notBusy) (hoffers : s.offers = transaction op x ++ rest) :
    ∃ t u, runSteps (x.length + 2) s = .next t ∧ t.phase = .doneOk ∧ t.offers = rest ∧ exec .result t = .next u ∧
      u.resPort = some { ok := true, kind := op, cause := none, len := (transform op x).length,
                         data := transform op x } := by
  have hr' : Offer.reset ∉ endOffer :: rest := by simp [endOffer, hr]
  obtain ⟨t, hrun, hconsumed, htail⟩ := run_command_dataOffers (x := x) hr' hs (by simpa [transaction] using hoffers)
  have hend : step t = .next (endOfInput { t with offers := rest }) :=
    (congrArg step (withOffers_eq_self htail).symm).trans
      (step_endOfInput_head_of_busyMode hr hconsumed.busyMode 0)
  have hbuf := (hconsumed.withOffers rest).bufferIs
  refine ⟨_, _, (runSteps_succ_eq_step hrun).trans hend, rfl, rfl, exec_result_endOfInput hbuf, ?_⟩
  obtain ⟨hlen, -⟩ := hbuf
  rw [showResult_resPort, okRecord, hlen, (hconsumed.withOffers rest).op_eq]

/-- A read failure ends a transaction with its cause and no buffer, whatever was consumed (R112). -/
theorem run_failedTransaction {c : Byte} (hr : Offer.reset ∉ rest) (hs : s.notBusy)
    (hoffers : s.offers = failedTransaction op x c ++ rest) :
    ∃ t u, runSteps (x.length + 2) s = .next t ∧ t.phase = .doneErr ∧ t.offers = rest ∧ exec .result t = .next u ∧
      u.resPort = some { ok := false, kind := op, cause := some c, len := 0, data := [] } := by
  have hr' : Offer.reset ∉ errOffer c :: rest := by simp [errOffer, hr]
  obtain ⟨t, hrun, hconsumed, htail⟩ :=
    run_command_dataOffers (x := x) hr' hs (by simpa [failedTransaction] using hoffers)
  have herr : step t = .next (raiseReadError c { t with offers := rest }) :=
    (congrArg step (withOffers_eq_self htail).symm).trans (step_err_head_of_busyMode hr hconsumed.busyMode c)
  refine ⟨_, _, (runSteps_succ_eq_step hrun).trans herr, rfl, rfl, exec_result_raiseReadError c _, ?_⟩
  rw [showResult_resPort, (hconsumed.withOffers rest).op_eq]

end

/-! ### The obligations -/

/-- Settles O44: the first step leaves the two states alike, every later one keeps them so, and alike states show the
same result. -/
theorem runsDependOnTheTransfersOnly : Obligations.RunsDependOnTheTransfersOnly := by
  intro n s t s' w os hs ht hso hto hrun
  obtain ⟨s₁, t₁, hs₁, ht₁, hagree₁, hoffers₁⟩ := step_agree_of_cmd hs ht hso hto
  rw [runSteps_succ hs₁] at hrun
  obtain ⟨t', hrun', hagree, hoffers⟩ := runSteps_agree hagree₁ hoffers₁ hrun
  refine ⟨t', (runSteps_succ ht₁ n).trans hrun', hagree, hoffers, fun u hu => ?_⟩
  obtain ⟨u', hu', -, hres⟩ := exec_result_agree hagree hu
  exact ⟨u', hu', hres⟩

/-- Settles O46: the encode side of `run_transaction`. -/
theorem encodeTransactionComputesEnc : Obligations.EncodeTransactionComputesEnc := by
  intro s x rest hr hs hoffers
  rw [← encStream_length]
  exact run_transaction hr hs hoffers

/-- Settles O47: the decode side of `run_transaction`. -/
theorem decodeTransactionComputesDec : Obligations.DecodeTransactionComputesDec := by
  intro s y rest hr hs hoffers
  rw [← decStream_length]
  exact run_transaction hr hs hoffers

/-- Settles O48: the error entry empties the buffer in every busy mode. -/
theorem readFailureFailsTheWholeTransaction : Obligations.ReadFailureFailsTheWholeTransaction :=
  fun _ _ _ _ _ => run_failedTransaction

/-- Settles O53: a stream without content decodes to nothing, and its transaction is a decode transaction like any
other. -/
theorem shortStreamsDecodeToNothing : Obligations.ShortStreamsDecodeToNothing := by
  intro y hy
  have hnil : decStream y = [] := decStream_of_length_le hy
  refine ⟨hnil, fun s rest hr hs hoffers => ?_⟩
  obtain ⟨t, u, hrun, -, -, hu, hres⟩ := run_transaction hr hs hoffers
  rw [transform, hnil] at hres
  exact ⟨t, u, hrun, hu, hres⟩

end Sys2Proof.Machine
end

section
/-!
PROOFS. Several instances side by side (60_exceptions.md): a step of one instance reads and writes its own place of the
system alone, so steps at different places commute (R140).
-/

namespace Sys2Proof.Machine

/-! ### What a step of one instance can do -/

/-- Everything a step of an instance can do: the instance exists, it steps, and its place alone is written. -/
theorem stepAt_eq_some_iff {n : Nat} {sys sys' : System} :
    stepAt n sys = some sys' ↔ ∃ s t, sys[n]? = some s ∧ step s = .next t ∧ sys' = sys.set n t := by
  unfold stepAt
  cases hs : sys[n]? with
  | none => simp
  | some s => cases ht : step s <;> simp [ht, eq_comm]

/-- A step of one instance leaves every other place as it was (R140). -/
theorem getElem?_of_stepAt_of_ne {m n : Nat} {sys sys' : System} (hmn : m ≠ n) (h : stepAt m sys = some sys') :
    sys'[n]? = sys[n]? := by
  obtain ⟨s, t, -, -, rfl⟩ := stepAt_eq_some_iff.1 h
  exact List.getElem?_set_ne hmn

/-- Two steps of different instances can be taken in the other order, with the same outcome (R140). -/
theorem stepAt_swap {m n : Nat} {sys sys₁ sys₂ : System} (hmn : m ≠ n) (hm : stepAt m sys = some sys₁)
    (hn : stepAt n sys₁ = some sys₂) : ∃ sys₁', stepAt n sys = some sys₁' ∧ stepAt m sys₁' = some sys₂ := by
  have hsame : sys₁[n]? = sys[n]? := getElem?_of_stepAt_of_ne hmn hm
  obtain ⟨s, t, hs, ht, rfl⟩ := stepAt_eq_some_iff.1 hm
  obtain ⟨u, v, hu, hv, rfl⟩ := stepAt_eq_some_iff.1 hn
  have hfirst : stepAt n sys = some (sys.set n v) := stepAt_eq_some_iff.2 ⟨u, v, hsame ▸ hu, hv, rfl⟩
  have hs' : (sys.set n v)[m]? = some s := (getElem?_of_stepAt_of_ne hmn.symm hfirst).trans hs
  exact ⟨_, hfirst, stepAt_eq_some_iff.2 ⟨s, t, hs', ht, List.set_comm t v hmn⟩⟩

/-! ### The obligation -/

/-- Settles O45: each order of the two steps can be swapped for the other, and a step writes its own place alone. -/
theorem instancesStepIndependently : Obligations.InstancesStepIndependently := by
  refine ⟨fun m n sys hmn => ?_, fun m n sys sys' => getElem?_of_stepAt_of_ne⟩
  ext sys₂
  simp only [Option.bind_eq_some_iff]
  constructor
  · rintro ⟨sys₁, hm, hn⟩
    exact stepAt_swap hmn hm hn
  · rintro ⟨sys₁, hn, hm⟩
    exact stepAt_swap hmn.symm hn hm

end Sys2Proof.Machine
end

section
/-!
PROOFS. The reset event (70_reset_and_hazards.md): it completes in every state and leaves a CORE that is ready for a
command (R150).
-/

namespace Sys2Proof.Machine

/-! ### What the reset event leaves -/

/-- The reset event completes in every state (R150). -/
theorem exec_reset (s : State) : exec .reset s = .next (resetEvent s) := rfl

/-- After a reset event the CORE accepts a command (R150). -/
theorem resetEvent_notBusy (s : State) : (resetEvent s).notBusy :=
  (busy_eq_false_iff _).1 rfl

/-! ### The obligation -/

/-- Settles O27: the state a reset event leaves is in the phase `IDLE`, which accepts both commands and has no result. -/
theorem resetReturnsToIdle : Obligations.ResetReturnsToIdle := by
  intro s
  have hidle : (resetEvent s).phase = .idle := resetEvent_phase s
  have hfree : (resetEvent s).notBusy := resetEvent_notBusy s
  exact ⟨resetEvent s, exec_reset s, hidle, exec_result_of_not_done (.inl hidle),
    ⟨_, exec_enc_of_notBusy hfree⟩, ⟨_, exec_dec_of_notBusy hfree⟩⟩

end Sys2Proof.Machine
end

section
/-!
PROOFS. The round trip of the two formats (30_encoding.md): the decoder and the encoder are inverse to each other in
every mode (R51 to R53), and a token operation completes in its own mode alone.
-/

namespace Sys2Proof

/-! ### From the instruction to its transfer and back -/

/-- A token operation is read back in its own mode (R53, R59). -/
theorem decode_encode_of_tokenMode {i : Instr} {op : Op} {phase : Phase} (h : tokenMode i = some (op, phase)) :
    decode op phase (encode i) = .ok i := by
  cases i with
  | encData b | decSkipData b | decData b =>
    cases h
    exact decode_tokWord_data _ _ b
  | encEnd p | decSkipEnd p | decEnd p =>
    cases h
    exact decode_tokWord_endOfInput _ _ p
  | encErr c | decSkipErr c | decErr c =>
    cases h
    exact decode_tokWord_err _ _ c
  | _ => cases h

/-- An operation without a mode of its own is read back in every mode. -/
theorem decode_encode_of_no_mode {i : Instr} (h : tokenMode i = none) (op : Op) (phase : Phase) :
    decode op phase (encode i) = .ok i := by
  cases i with
  | enc | dec | result | reset => rfl
  | tokReserved p => exact decode_tokWord_reserved op phase p
  | _ => cases h

/-! ### From the transfer to its instruction and back -/

/-- The instruction is carried by this transfer, and it belongs to this mode if it has one of its own. -/
abbrev CarriedBy (op : Op) (phase : Phase) (o : Offer) (i : Instr) : Prop :=
  encode i = o ∧ (tokenMode i = none ∨ tokenMode i = some (op, phase))

/-- The two command words are the codes of the two commands (R51). -/
theorem encode_decodeCmd (w : CmdWord) : encode (decodeCmd w) = .cmd w := by
  revert w
  decide

theorem tokenMode_decodeCmd (w : CmdWord) : tokenMode (decodeCmd w) = none := by
  unfold decodeCmd
  split <;> rfl

/-- What a column of the map answers is carried by the column's word, if each of its three operations is carried by it
in its own mode (R53). -/
theorem carriedBy_of_byMode {op : Op} {phase : Phase} {o : Offer} {e k d i : Instr}
    (he : CarriedBy .enc .body o e) (hk : CarriedBy .dec .skip o k) (hd : CarriedBy .dec .body o d)
    (h : byMode op phase e k d = .ok i) : CarriedBy op phase o i := by
  obtain ⟨rfl, rfl, rfl⟩ | ⟨rfl, rfl, rfl⟩ | ⟨rfl, rfl, rfl⟩ := byMode_ok h
  · exact he
  · exact hk
  · exact hd

/-- What a token word decodes to is carried by that word (R52, R53). -/
theorem carriedBy_of_decode_tok {op : Op} {phase : Phase} {w : TokWord} {i : Instr}
    (h : decode op phase (.tok w) = .ok i) : CarriedBy op phase (.tok w) i := by
  obtain ⟨kind, p, rfl⟩ := exists_eq_tokWord w
  cases kind with
  | data =>
    rw [decode_tokWord_data] at h
    exact carriedBy_of_byMode ⟨rfl, .inr rfl⟩ ⟨rfl, .inr rfl⟩ ⟨rfl, .inr rfl⟩ h
  | endOfInput =>
    rw [decode_tokWord_endOfInput] at h
    exact carriedBy_of_byMode ⟨rfl, .inr rfl⟩ ⟨rfl, .inr rfl⟩ ⟨rfl, .inr rfl⟩ h
  | err =>
    rw [decode_tokWord_err] at h
    exact carriedBy_of_byMode ⟨rfl, .inr rfl⟩ ⟨rfl, .inr rfl⟩ ⟨rfl, .inr rfl⟩ h
  | reserved =>
    rw [decode_tokWord_reserved] at h
    obtain rfl := Except.ok.inj h
    exact ⟨rfl, .inl rfl⟩

end Sys2Proof

namespace Sys2Proof.Machine

/-! ### The obligations -/

/-- Settles O7: each word is the kind and the payload of its operation, read in the operation's mode. -/
theorem sampleWordsDecode : Obligations.SampleWordsDecode :=
  ⟨rfl, rfl, decode_tokWord_data .enc .body 0x48, decode_tokWord_endOfInput .enc .body 0xFF,
    decode_tokWord_err .dec .skip 7, decode_tokWord_data .dec .body 0xB7, decode_tokWord_reserved .dec .body 0⟩

/-- Settles O8: an operation has a mode of its own, in which its word is read from the column of its kind, or its
transfer is read alike in every mode. -/
theorem decodeOfEncodeIsIdentity : Obligations.DecodeOfEncodeIsIdentity := by
  intro i op phase hmode
  obtain hnone | hsome := hmode
  · exact decode_encode_of_no_mode hnone op phase
  · exact decode_encode_of_tokenMode hsome

/-- Settles O9, by the port of the transfer. -/
theorem encodeOfDecodeIsIdentity : Obligations.EncodeOfDecodeIsIdentity := by
  intro o op phase i h
  cases o with
  | cmd w =>
    obtain rfl := Except.ok.inj h
    exact ⟨encode_decodeCmd w, .inl (tokenMode_decodeCmd w)⟩
  | tok w => exact carriedBy_of_decode_tok h
  | result | reset =>
    obtain rfl := Except.ok.inj h
    exact ⟨rfl, .inl rfl⟩

/-- Settles O26: acceptance asks for the mode and for nothing else. -/
theorem tokenCompletesExactlyInItsMode : Obligations.TokenCompletesExactlyInItsMode := by
  intro i op phase s hm
  constructor
  · rintro ⟨t, ht⟩
    exact mode_of_exec hm ht
  · rintro ⟨rfl, rfl⟩
    exact exec_of_tokenMode hm

end Sys2Proof.Machine
end

section
/-!
PROOFS. The invariants of R19 (10_state.md section 3): the form of the output buffer and the invariants (a) to (f), at
reset, kept by each operation, and so held by every reachable state.
-/

namespace Sys2Proof.Machine

/-! ### The form of the output buffer -/

theorem bufferInv_of_nil {s : State} (h : s.obuf = []) : s.BufferInv :=
  ⟨by rw [h]; rfl, fun a _ => by rw [h]; rfl⟩

theorem bufferInv_startEncode (s : State) : (startEncode s).BufferInv :=
  ⟨wf_ofBytes 0 headerRom, fun a ha => (read_headerImage a).trans (List.getElem?_eq_none ha)⟩

/-- An appended byte stays below the new `OLEN` (R33). -/
theorem bufferInv_emitContent {s : State} (v : Byte) (h : s.BufferInv) : (emitContent s v).BufferInv where
  canonical := wf_write s.olen v h.canonical
  belowLen a ha := by
    rw [emitContent_olen] at ha
    rw [read_emitContent_of_ne v (by omega)]
    exact h.belowLen a (by omega)

theorem bufferInv_skipHeaderByte {s : State} (h : s.BufferInv) : (skipHeaderByte s).BufferInv where
  canonical := by simpa using h.canonical
  belowLen := by simpa using h.belowLen

/-- Every instruction that completes keeps the form of `OBUF` (R16). -/
theorem exec_bufferInv {i : Instr} {s t : State} (hs : s.BufferInv) (h : exec i s = .next t) : t.BufferInv := by
  obtain ⟨-, -, rfl⟩ | ⟨-, -, rfl⟩ | ⟨b, -, -, -, rfl⟩ | ⟨b, -, -, -, rfl⟩ | ⟨p, -, -, -, rfl⟩ | ⟨-, -, rfl⟩ |
    ⟨c, -, -, rfl⟩ | ⟨-, -, data, -, rfl⟩ | ⟨-, -, rfl⟩ | ⟨-, rfl⟩ := exec_next_cases h
  · exact bufferInv_startEncode s
  · exact bufferInv_of_nil rfl
  · exact bufferInv_emitContent _ hs
  · exact bufferInv_emitContent _ hs
  · exact bufferInv_skipHeaderByte hs
  · exact ⟨hs.canonical, hs.belowLen⟩
  · exact bufferInv_of_nil rfl
  · exact ⟨hs.canonical, hs.belowLen⟩
  · exact ⟨hs.canonical, hs.belowLen⟩
  · exact bufferInv_of_nil rfl

/-! ### The invariants, operation by operation -/

/-- No phase has a code above 4 (R12, R19 (f)). -/
theorem phaseCode_toNat_le (p : Phase) : (phaseCode p).toNat ≤ 4 := by
  cases p <;> decide

/-- In `IDLE` the invariants speak of the form of the buffer alone. -/
theorem inv_of_idle {s : State} (hp : s.phase = .idle) (hs : s.BufferInv) : s.Inv where
  buffer := hs
  inSkip h := by simp [hp] at h
  inBody h := by simp [hp] at h
  inDoneErr h := by simp [hp] at h
  legalCounters h := absurd hp h
  headerEmitted _ h := by simp [hp] at h
  legalCode := phaseCode_toNat_le _
  filled h := absurd hp h

theorem inv_resetEvent (s : State) : (resetEvent s).Inv :=
  inv_of_idle rfl (bufferInv_of_nil rfl)

/-- `ENC` starts a body with the whole header in the buffer (R82). -/
theorem inv_startEncode (s : State) : (startEncode s).Inv where
  buffer := bufferInv_startEncode s
  inSkip h := by cases h
  inBody _ := ⟨rfl, 0, rfl, rfl⟩
  inDoneErr h := by cases h
  legalCounters _ := by simp
  headerEmitted _ _ := ⟨Nat.le_refl 123, fun a _ => read_headerImage a⟩
  legalCode := phaseCode_toNat_le _
  filled _ a ha := by
    have hlt : a < headerRom.length := ha
    rw [startEncode_obuf, read_headerImage, List.getElem?_eq_getElem hlt]
    rfl

/-- `DEC` starts the skip stage with an empty buffer (R83). -/
theorem inv_startDecode (s : State) : (startDecode s).Inv where
  buffer := bufferInv_of_nil rfl
  inSkip _ := ⟨rfl, by simp, rfl, rfl⟩
  inBody h := by cases h
  inDoneErr h := by cases h
  legalCounters _ := by simp
  headerEmitted h := by cases h
  legalCode := phaseCode_toNat_le _
  filled _ a ha := absurd ha a.not_lt_zero

/-- A content byte in a body steps the key index and `OLEN` together (R19 (b), R91, R104). -/
theorem inv_emitContent {s : State} (v : Byte) (h : s.Inv) (hp : s.phase = .body) : (emitContent s v).Inv := by
  obtain ⟨hhcnt, n, hkidx, holen⟩ := h.inBody hp
  have hkidx' : (nextk s.kidx).toNat = (n + 1) % 37 := nextk_toNat_of_mod hkidx
  exact {
    buffer := bufferInv_emitContent v h.buffer
    inSkip := fun hs => by simp [hp] at hs
    inBody := fun _ => ⟨hhcnt, n + 1, hkidx', by rw [emitContent_olen, holen, emitContent_op]; omega⟩
    inDoneErr := fun he => by simp [hp] at he
    legalCounters := fun _ => ⟨by rw [emitContent_kidx]; omega, by rw [emitContent_hcnt, hhcnt]; decide⟩
    headerEmitted := fun hop _ => by
      obtain ⟨hlen, hread⟩ := h.headerEmitted hop (.inl hp)
      exact ⟨Nat.le_succ_of_le hlen, fun a ha => (read_emitContent_of_ne v (by omega)).trans (hread a ha)⟩
    legalCode := phaseCode_toNat_le _
    filled := fun _ a ha => by
      obtain hlt | rfl := Nat.lt_succ_iff_lt_or_eq.1 ha
      · rw [read_emitContent_of_ne v hlt.ne]
        exact h.filled (by simp [hp]) a hlt
      · rw [read_emitContent_olen]
        rfl }

/-- A discarded byte counts towards 123; the last one opens the body with content position 0 (R101). -/
theorem inv_skipHeaderByte {s : State} (h : s.Inv) (hp : s.phase = .skip) : (skipHeaderByte s).Inv := by
  obtain ⟨hop, hcnt, holen, hkidx⟩ := h.inSkip hp
  have hcount := skipHeaderByte_hcnt_toNat hcnt
  have hphase := skipHeaderByte_phase s
  have hempty : ∀ a, ¬ a < (skipHeaderByte s).olen := fun a => by simp [holen]
  refine ⟨bufferInv_skipHeaderByte h.buffer, fun hskip => ?_, fun hbody => ?_, fun _ => by simpa, fun _ => ?_,
    fun henc => by simp [hop] at henc, phaseCode_toNat_le _, fun _ a ha => absurd ha (hempty a)⟩
  · have hlast : s.hcnt.toNat ≠ 122 := fun hlast => by simp [hphase, hlast] at hskip
    exact ⟨by simpa, by omega, by simpa, by simpa⟩
  · have hlast : s.hcnt.toNat = 122 := by
      by_contra hlast
      simp [hphase, hlast, hp] at hbody
    exact ⟨BitVec.eq_of_toNat_eq (by rw [hcount, hlast]; rfl), 0, by simp [hkidx], by simp [holen, hop]⟩
  · exact ⟨by simp [hkidx], by omega⟩

/-- The end of the input keeps the buffer (R92, R102, R105). -/
theorem inv_endOfInput {s : State} (h : s.Inv) (hm : s.busyMode) : (endOfInput s).Inv := by
  have hidle : s.phase ≠ .idle := by obtain hp | hp := phase_of_busyMode hm <;> simp [hp]
  exact {
    buffer := ⟨h.buffer.canonical, h.buffer.belowLen⟩
    inSkip := fun hs => by cases hs
    inBody := fun hb => by cases hb
    inDoneErr := fun he => by cases he
    legalCounters := fun _ => h.legalCounters hidle
    headerEmitted := fun hop _ => by
      have hbody : s.phase = .body := by simpa [State.busyMode, show s.op = .enc from hop] using hm
      exact h.headerEmitted hop (.inl hbody)
    legalCode := phaseCode_toNat_le _
    filled := fun _ => h.filled hidle }

/-- The error entry empties the buffer (R133). -/
theorem inv_raiseReadError {s : State} (c : Byte) (h : s.Inv) (hidle : s.phase ≠ .idle) :
    (raiseReadError c s).Inv where
  buffer := bufferInv_of_nil rfl
  inSkip hs := by cases hs
  inBody hb := by cases hb
  inDoneErr _ := rfl
  legalCounters _ := h.legalCounters hidle
  headerEmitted _ hp := by simp at hp
  legalCode := phaseCode_toNat_le _
  filled _ a ha := absurd ha a.not_lt_zero

theorem inv_showResult {s : State} (r : ResRecord) (h : s.Inv) : (showResult s r).Inv :=
  ⟨⟨h.buffer.canonical, h.buffer.belowLen⟩, h.inSkip, h.inBody, h.inDoneErr, h.legalCounters, h.headerEmitted,
    h.legalCode, h.filled⟩

/-- Every instruction that completes keeps the invariants. -/
theorem exec_inv {i : Instr} {s t : State} (hs : s.Inv) (h : exec i s = .next t) : t.Inv := by
  obtain ⟨-, -, rfl⟩ | ⟨-, -, rfl⟩ | ⟨b, -, -, hp, rfl⟩ | ⟨b, -, -, hp, rfl⟩ | ⟨p, -, -, hp, rfl⟩ | ⟨-, hm, rfl⟩ |
    ⟨c, -, hm, rfl⟩ | ⟨-, -, data, -, rfl⟩ | ⟨-, -, rfl⟩ | ⟨-, rfl⟩ := exec_next_cases h
  · exact inv_startEncode s
  · exact inv_startDecode s
  · exact inv_emitContent _ hs hp
  · exact inv_emitContent _ hs hp
  · exact inv_skipHeaderByte hs hp
  · exact inv_endOfInput hs (busyMode_of_tokenMode hm)
  · refine inv_raiseReadError c hs ?_
    obtain hp | hp := phase_of_busyMode (busyMode_of_tokenMode hm) <;> simp [hp]
  · exact inv_showResult _ hs
  · exact inv_showResult _ hs
  · exact inv_resetEvent s

/-! ### The obligations -/

/-- Settles O39: a step is an instruction on the same buffer. -/
theorem stepKeepsTheBufferForm : Obligations.StepKeepsTheBufferForm := by
  intro s t hs hstep
  obtain ⟨o, rest, i, -, -, hexec⟩ := step_next_cases hstep
  exact exec_bufferInv (s := { s with offers := rest }) ⟨hs.canonical, hs.belowLen⟩ hexec

/-- Settles O40: a step is an instruction, and the invariants do not depend on what is offered. -/
theorem stepKeepsTheInvariants : Obligations.StepKeepsTheInvariants := by
  intro s t hs hstep
  obtain ⟨o, rest, i, -, -, hexec⟩ := step_next_cases hstep
  exact exec_inv (inv_withOffers rest hs) hexec

/-- Settles O41: `PHASE` is `IDLE` and the buffer holds no byte. -/
theorem resetHasTheInvariants : Obligations.ResetHasTheInvariants :=
  inv_of_idle rfl (bufferInv_of_nil rfl)

/-- Settles O42, by induction on how the state is reached. -/
theorem reachableStatesHaveTheInvariants : Obligations.ReachableStatesHaveTheInvariants := by
  intro s hs
  induction hs with
  | reset => exact resetHasTheInvariants
  | offer os _ ih => exact inv_withOffers os ih
  | step _ hstep ih => exact stepKeepsTheInvariants _ _ ih hstep

end Sys2Proof.Machine
end

section
/-!
PROOFS. The step (41_commands.md, 70_reset_and_hazards.md): which transfer is made and what becomes of the others (R80,
R136), when there is none, and what a CORE in `IDLE` does first (R26).
-/

namespace Sys2Proof.Machine

/-! ### The reasons to stop -/

theorem acceptCommand_ne_fault (s t : State) (f : Fault) : acceptCommand s t ≠ .fault f := by
  unfold acceptCommand
  split <;> simp

theorem acceptToken_ne_fault (op : Op) (phase : Phase) (s t : State) (f : Fault) :
    acceptToken op phase s t ≠ .fault f := by
  unfold acceptToken
  split
  · simp
  · split <;> simp

/-- An instruction faults in one way only: the observation meets an element without a value (log entry 12). -/
theorem exec_fault {i : Instr} {s : State} {f : Fault} (h : exec i s = .fault f) : f = .unwrittenByte := by
  cases i with
  | enc | dec => exact absurd h (acceptCommand_ne_fault s _ f)
  | encData | encEnd | encErr | decSkipData | decSkipEnd | decSkipErr | decData | decEnd | decErr =>
    exact absurd h (acceptToken_ne_fault _ _ s _ f)
  | tokReserved | reset => cases h
  | result =>
    simp only [exec, execResult] at h
    split at h
    · split at h
      · cases h
      · exact (Host.Outcome.fault.inj h).symm
    all_goals cases h

/-- An element without a value in a range leaves the range without one. -/
theorem readRange_eq_none {m : Memory} {a n i : Nat} (hi : i < n) (h : Memory.read m (a + i) = none) :
    Memory.readRange m a n = none := by
  refine Option.eq_none_iff_forall_ne_some.2 fun bs hbs => ?_
  obtain ⟨hlen, hread⟩ := (readRange_eq_some_iff m a n bs).1 hbs
  have hout : bs[i]? = none := (hread i hi).symm.trans h
  have := List.getElem?_eq_none_iff.1 hout
  omega

/-- A step stops for want of a transfer exactly when none can be made (R20, R139). -/
theorem step_noTransfer_iff (s : State) :
    step s = .fault .noTransfer ↔ nextTransfer s.phase s.offers = none := by
  unfold step
  split
  · simp [*]
  · rename_i o rest hnext
    simp only [hnext, reduceCtorEq, iff_false]
    split
    · simp
    · intro h
      cases exec_fault h

/-- In `IDLE` the ports `CMD` and `RESET` alone are open (R21 to R23, R150). -/
theorem portOpen_idle {o : Offer} (h : portOpen .idle o = true) : (∃ w, o = .cmd w) ∨ o = .reset := by
  cases o with
  | cmd w => exact .inl ⟨w, rfl⟩
  | tok | result => cases h
  | reset => exact .inr rfl

/-! ### The obligations -/

/-- Settles O15: the observation needs every byte of the buffer. -/
theorem resultOfAnUnwrittenByteFaults : Obligations.ResultOfAnUnwrittenByteFaults := by
  intro s a hp ha hread
  have hnone : Memory.readRange s.obuf 0 s.olen = none := readRange_eq_none ha (by rwa [Nat.zero_add])
  simp [exec, execResult, hp, hnone]

/-- Settles O28: the next transfer is at a port open in `IDLE`, so a command or a reset, and it completes. -/
theorem afterResetACommandComesFirst : Obligations.AfterResetACommandComesFirst := by
  refine ⟨rfl, read_nil, fun s t hp hstep => ?_⟩
  obtain ⟨o, rest, i, hnext, hdec, hexec⟩ := step_next_cases hstep
  have hoffers : t.offers = rest := exec_offers hexec
  rw [hp] at hnext
  obtain ⟨-, -, -, -, hopen, -⟩ := nextTransfer_some hnext
  obtain ⟨w, rfl⟩ | rfl := portOpen_idle hopen
  · obtain rfl := Except.ok.inj hdec
    have hfree : ({ s with offers := rest } : State).notBusy := by simp [hp]
    obtain ⟨u, hu, hphase⟩ := exec_decodeCmd_of_notBusy w hfree
    obtain rfl := Host.Outcome.next.inj (hexec.symm.trans hu)
    exact .inl ⟨w, rest, hnext, hoffers, hphase⟩
  · obtain rfl := Except.ok.inj hdec
    obtain rfl := Host.Outcome.next.inj hexec
    exact .inr ⟨rest, hnext, hoffers, rfl⟩

/-- Settles O29: the transfer so placed is the next one. -/
theorem stepRunsTheDecodedInstruction : Obligations.StepRunsTheDecodedInstruction := by
  intro s pre post o i hoffers hpre hopen hr hdec
  have hnext : nextTransfer s.phase s.offers = some (o, pre ++ post) :=
    hoffers ▸ nextTransfer_of_open hopen hpre hr
  exact step_of_nextTransfer hnext hdec

/-- Settles O30: no transfer is the only reason for this fault, and there is none when every port is closed. -/
theorem stepIsStuckWithoutATransfer : Obligations.StepIsStuckWithoutATransfer := by
  intro s
  rw [step_noTransfer_iff, nextTransfer_eq_none_iff]

/-- Settles O60: a pending reset is the next transfer whatever else is offered; without one a reserved token at its open
port is, and its operation is refused in every state. -/
theorem resetOverridesEverythingOffered : Obligations.ResetOverridesEverythingOffered := by
  refine ⟨fun s hmem => ⟨_, step_reset hmem, exec_reset _, rfl, rfl⟩, ?_⟩
  intro s w pre post hbusy hw hoffers hpre hr
  have hopen : portOpen s.phase (.tok w) = true := (portOpen_tok_iff _ _).2 (by simpa using hbusy)
  have hdec := decode_tok_of_reserved ((tokKind_eq_reserved_iff w).2 hw) s.op s.phase
  exact stepRunsTheDecodedInstruction s pre post _ _ hoffers hpre hopen (.inr hr) hdec

end Sys2Proof.Machine
end

section
/-!
PROOFS. Registers, buffer and ports over all instructions (10_state.md): who ends a busy transaction (R84, R85), who
writes `OP` and `ERRCAUSE` (R11, R17), how `HCNT` moves (R13), that `OBUF` is append-only (R16), and what an instruction
does at the ports.
-/

namespace Sys2Proof.Machine

section
variable {i : Instr} {s t : State}

/-! ### What completes in a busy phase -/

/-- An `END` operation is neither an `ERR` operation nor the reset event. -/
theorem not_raises_of_endsInput (h : endsInput i = true) : raisesReadError i = false ∧ i ≠ .reset := by
  cases i with
  | encEnd | decSkipEnd | decEnd => exact ⟨rfl, nofun⟩
  | _ => cases h

/-- An `ERR` operation that completes has made the error entry with its token's payload (R133). -/
theorem eq_raiseReadError_of_exec (hi : raisesReadError i = true) (h : exec i s = .next t) :
    ∃ c, encode i = errOffer c ∧ t = raiseReadError c s := by
  cases i with
  | encErr c | decSkipErr c | decErr c =>
    obtain ⟨-, -, rfl⟩ := (acceptToken_next_iff _ _ s _ t rfl).1 h
    exact ⟨c, rfl, rfl⟩
  | _ => cases hi

/-- Everything an instruction can do in a busy phase: a `DATA`, an `END` or an `ERR` token, or the reset event. -/
theorem exec_next_cases_of_busy (hp : s.phase = .skip ∨ s.phase = .body) (h : exec i s = .next t) :
    (s.phase = .body ∧ (∃ v, t = emitContent s v) ∧
      endsInput i = false ∧ raisesReadError i = false ∧ i ≠ .reset) ∨
    (s.phase = .skip ∧ t = skipHeaderByte s ∧ endsInput i = false ∧ raisesReadError i = false ∧ i ≠ .reset) ∨
    (endsInput i = true ∧ t = endOfInput s ∧ raisesReadError i = false ∧ i ≠ .reset) ∨
    (raisesReadError i = true ∧ (∃ c, t = raiseReadError c s) ∧ endsInput i = false ∧ i ≠ .reset) ∨
    (i = .reset ∧ t = resetEvent s) := by
  have hbusy : ¬ s.notBusy := by obtain hp | hp := hp <;> simp [State.notBusy, hp]
  obtain ⟨-, hfree, -⟩ | ⟨-, hfree, -⟩ | ⟨b, rfl, -, hbody, ht⟩ | ⟨b, rfl, -, hbody, ht⟩ | ⟨p, rfl, -, hskip, ht⟩ |
    ⟨hi, -, ht⟩ | ⟨c, hi, -, ht⟩ | ⟨-, hdone, -⟩ | ⟨-, hdone, -⟩ | hreset := exec_next_cases h
  · exact absurd hfree hbusy
  · exact absurd hfree hbusy
  · exact .inl ⟨hbody, ⟨_, ht⟩, rfl, rfl, nofun⟩
  · exact .inl ⟨hbody, ⟨_, ht⟩, rfl, rfl, nofun⟩
  · exact .inr (.inl ⟨hskip, ht, rfl, rfl, nofun⟩)
  · exact .inr (.inr (.inl ⟨hi, ht, not_raises_of_endsInput hi⟩))
  · refine .inr (.inr (.inr (.inl ?_)))
    obtain rfl | rfl | rfl := hi <;> exact ⟨rfl, ⟨c, ht⟩, rfl, nofun⟩
  · simp [hdone] at hp
  · simp [hdone] at hp
  · exact .inr (.inr (.inr (.inr hreset)))

/-! ### What an instruction does not write -/

/-- Each field is held by every instruction but its own writers: `OP` by all but the commands and reset (R11),
`ERRCAUSE` by all but the error entry and reset (R17), the record the host holds by all but the observation (R86), the
count of free values by all but reset (R150). -/
theorem exec_holds (h : exec i s = .next t) :
    (i ≠ .enc → i ≠ .dec → i ≠ .reset → t.op = s.op) ∧
    (raisesReadError i = false → i ≠ .reset → t.errcause = s.errcause) ∧
    (i ≠ .result → t.resPort = s.resPort) ∧
    (i ≠ .reset → t.draws = s.draws) := by
  obtain ⟨rfl, -, rfl⟩ | ⟨rfl, -, rfl⟩ | ⟨b, -, -, -, rfl⟩ | ⟨b, -, -, -, rfl⟩ | ⟨p, -, -, -, rfl⟩ | ⟨-, -, rfl⟩ |
    ⟨c, hi, -, rfl⟩ | ⟨rfl, -, data, -, rfl⟩ | ⟨rfl, -, rfl⟩ | ⟨rfl, rfl⟩ := exec_next_cases h
  on_goal 7 => obtain rfl | rfl | rfl := hi
  all_goals simp [raisesReadError]

/-- What is no command, read failure or reset leaves the buffer alone or appends one byte (R16). -/
theorem exec_buffer_cases (h : exec i s = .next t) (henc : i ≠ .enc) (hdec : i ≠ .dec) (hreset : i ≠ .reset)
    (hraise : raisesReadError i = false) : (t.olen = s.olen ∧ t.obuf = s.obuf) ∨ ∃ v, t = emitContent s v := by
  obtain ⟨rfl, -⟩ | ⟨rfl, -⟩ | ⟨b, -, -, -, ht⟩ | ⟨b, -, -, -, ht⟩ | ⟨p, -, -, -, rfl⟩ | ⟨-, -, rfl⟩ |
    ⟨c, hi, -⟩ | ⟨-, -, data, -, rfl⟩ | ⟨-, -, rfl⟩ | ⟨rfl, -⟩ := exec_next_cases h
  · exact absurd rfl henc
  · exact absurd rfl hdec
  · exact .inr ⟨_, ht⟩
  · exact .inr ⟨_, ht⟩
  · exact .inl ⟨skipHeaderByte_olen s, skipHeaderByte_obuf s⟩
  · exact .inl ⟨rfl, rfl⟩
  · obtain rfl | rfl | rfl := hi <;> cases hraise
  · exact .inl ⟨rfl, rfl⟩
  · exact .inl ⟨rfl, rfl⟩
  · exact absurd rfl hreset

end

/-! ### The obligations -/

/-- Settles O34: a `DATA` token leaves a busy phase; `END`, `ERR` and reset lead to one phase each. -/
theorem onlyEndErrOrResetLeavesBusy : Obligations.OnlyEndErrOrResetLeavesBusy := by
  intro i s t hp h
  obtain ⟨hbody, ⟨v, rfl⟩, hend, hraise, hreset⟩ | ⟨hskip, rfl, hend, hraise, hreset⟩ | ⟨hend, rfl, hraise, hreset⟩ |
    ⟨hraise, ⟨c, rfl⟩, hend, hreset⟩ | ⟨rfl, rfl⟩ := exec_next_cases_of_busy hp h
  · simp [hbody, hend, hraise, hreset]
  · rw [skipHeaderByte_phase, hskip]
    split <;> simp [hend, hraise, hreset]
  · simp [hend, hraise, hreset]
  · simp [hend, hraise, hreset]
  · simp [endsInput, raisesReadError]

/-- Settles O35: the commands load `OP`, and the error entry alone writes `ERRCAUSE`, with its token's payload. -/
theorem opAndErrcauseWritersAreTheirRules : Obligations.OpAndErrcauseWritersAreTheirRules := by
  intro i s t h hreset
  obtain ⟨hop, herrcause, -, -⟩ := exec_holds h
  refine ⟨?_, ?_, fun henc hdec => hop henc hdec hreset, fun hraise => herrcause hraise hreset, fun hraise => ?_⟩
  · rintro rfl
    obtain ⟨-, rfl⟩ := (acceptCommand_next_iff s _ t).1 h
    rfl
  · rintro rfl
    obtain ⟨-, rfl⟩ := (acceptCommand_next_iff s _ t).1 h
    rfl
  · obtain ⟨c, hc, rfl⟩ := eq_raiseReadError_of_exec hraise h
    exact hc

/-- Settles O36: a discarded byte counts one up from below 123, and whatever else completes holds `HCNT`. -/
theorem headerCounterNeverDecreasesInATransaction : Obligations.HeaderCounterNeverDecreasesInATransaction := by
  intro i s t hinv hp h hreset
  have hidle : s.phase ≠ .idle := by obtain hp | hp := hp <;> simp [hp]
  obtain ⟨-, hle⟩ := hinv.legalCounters hidle
  obtain ⟨-, ⟨v, rfl⟩, -⟩ | ⟨hskip, rfl, -⟩ | ⟨-, rfl, -⟩ | ⟨-, ⟨c, rfl⟩, -⟩ | ⟨rfl, -⟩ := exec_next_cases_of_busy hp h
  · exact ⟨Nat.le_refl _, hle⟩
  · obtain ⟨-, hlt, -⟩ := hinv.inSkip hskip
    have hcount := skipHeaderByte_hcnt_toNat hlt
    omega
  · exact ⟨Nat.le_refl _, hle⟩
  · exact ⟨Nat.le_refl _, hle⟩
  · exact absurd rfl hreset

/-- Settles O37: a byte is appended at index `OLEN`, where none is held. -/
theorem bufferIsAppendOnly : Obligations.BufferIsAppendOnly := by
  intro i s t hinv h henc hdec hreset hraise
  obtain ⟨holen, hobuf⟩ | ⟨v, rfl⟩ := exec_buffer_cases h henc hdec hreset hraise
  · exact ⟨fun a v ha => hobuf ▸ ha, fun a _ => by rw [hobuf], .inl ⟨holen, hobuf⟩⟩
  · refine ⟨fun a w ha => ?_, fun a => read_emitContent_of_ne v, .inr ⟨rfl, v, read_emitContent_olen s v⟩⟩
    have hne : a ≠ s.olen := by
      rintro rfl
      simp [hinv.belowLen _ (Nat.le_refl _)] at ha
    rw [read_emitContent_of_ne v hne, ha]

/-- Settles O38: each port field is held by every instruction but its own writer, and a reset event draws once. -/
theorem portsMoveOnlyByTheirOwnTransfers : Obligations.PortsMoveOnlyByTheirOwnTransfers := by
  intro i s t h
  obtain ⟨-, -, hresPort, hdraws⟩ := exec_holds h
  refine ⟨exec_offers h, hresPort, ?_⟩
  by_cases hreset : i = .reset
  · subst hreset
    obtain rfl := Host.Outcome.next.inj h
    rfl
  · rw [if_neg hreset, hdraws hreset, Nat.add_zero]

end Sys2Proof.Machine
end

section
/-!
PROOFS. The course of a transaction: the key index and `OLEN` follow the content position (R14, R19 (b)), and a busy
transaction ends with its stream (R158).
-/

namespace Sys2Proof.Machine

section
variable {s : State} {rest : List Offer}

/-! ### The registers in the body -/

/-- In an encode body the counters follow the content position (R14, R19 (b)). -/
theorem Consumed.body_of_enc {x : List Byte} (h : Consumed s .enc x) :
    s.phase = .body ∧ s.kidx.toNat = x.length % 37 ∧ s.olen = 123 + x.length := by
  cases h with
  | encBody _ hphase hkidx hbuf =>
    obtain ⟨hlen, -⟩ := hbuf
    exact ⟨hphase, hkidx, hlen.symm.trans (encStream_length x)⟩

/-- Once 123 header bytes are behind, the counters follow the content position (R14, R19 (b)). -/
theorem Consumed.body_of_dec {y : List Byte} (h : Consumed s .dec y) (hy : 123 ≤ y.length) :
    s.phase = .body ∧ s.kidx.toNat = (y.length - 123) % 37 ∧ s.olen = y.length - 123 := by
  have holen : s.olen = y.length - 123 := by
    obtain ⟨hlen, -⟩ := h.bufferIs
    exact hlen.symm.trans (decStream_length y)
  cases h with
  | decSkip _ _ hshort => omega
  | decBody _ hphase hheader hkidx _ => exact ⟨hphase, by simpa [hheader] using hkidx, holen⟩

/-! ### A busy mode, whatever the registers hold -/

/-- In every busy mode the step of a `DATA` token leaves a busy mode of the same operation (R84). -/
theorem step_data_of_busyMode {b : Byte} (hm : s.busyMode) (hr : Offer.reset ∉ rest)
    (hoffers : s.offers = .tok (tokWord .data b) :: rest) :
    ∃ t, step s = .next t ∧ t.busyMode ∧ t.op = s.op ∧ t.offers = rest := by
  rw [← withOffers_eq_self hoffers]
  obtain ⟨ho, hp⟩ | ⟨ho, hp⟩ | ⟨ho, hp⟩ := hm
  · exact ⟨_, step_data_head_of_encBody hr ho hp b, .inl ⟨ho, hp⟩, rfl, rfl⟩
  · refine ⟨_, step_data_head_of_skip hr ho hp b, ?_, skipHeaderByte_op _, skipHeaderByte_offers _⟩
    by_cases hlast : s.hcnt.toNat = 122 <;> simp [State.busyMode, skipHeaderByte_phase, ho, hp, hlast]
  · exact ⟨_, step_data_head_of_decBody hr ho hp b, .inr (.inr ⟨ho, hp⟩), rfl, rfl⟩

/-- `DATA` tokens alone do not end a busy transaction (R84). -/
theorem run_dataOffers_of_busyMode {x : List Byte} (hm : s.busyMode) (hr : Offer.reset ∉ rest)
    (hoffers : s.offers = dataOffers x ++ rest) :
    ∃ t, runSteps x.length s = .next t ∧ t.busyMode ∧ t.op = s.op ∧ t.offers = rest := by
  induction x generalizing s with
  | nil => exact ⟨s, rfl, hm, rfl, hoffers⟩
  | cons b x ih =>
    obtain ⟨s₁, hstep, hm₁, hop₁, hoffers₁⟩ :=
      step_data_of_busyMode hm (reset_notMem_dataOffers_append x hr) hoffers
    obtain ⟨t, hrun, ht, hop, hrest⟩ := ih hm₁ hoffers₁
    exact ⟨t, (runSteps_succ hstep x.length).trans hrun, ht, hop.trans hop₁, hrest⟩

end

/-! ### The obligations -/

/-- Settles O49: the counters of the state a command and its `DATA` tokens lead to. -/
theorem keyIndexFollowsTheContentPosition : Obligations.KeyIndexFollowsTheContentPosition := by
  refine ⟨fun s x rest hr hs hoffers => ?_, fun s h x rest hr hs hh hoffers => ?_⟩
  · obtain ⟨t, hrun, hconsumed, hrest⟩ := run_command_dataOffers hr hs hoffers
    obtain ⟨hphase, hkidx, holen⟩ := hconsumed.body_of_enc
    exact ⟨t, hrun, hphase, hrest, hkidx, holen⟩
  · have hlen : (h ++ x).length = 123 + x.length := by simp [hh]
    obtain ⟨t, hrun, hconsumed, hrest⟩ := run_command_dataOffers hr hs hoffers
    obtain ⟨hphase, hkidx, holen⟩ := hconsumed.body_of_dec (by omega)
    rw [hlen, Nat.add_sub_cancel_left] at hkidx holen
    exact ⟨t, hlen ▸ hrun, hphase, hrest, hkidx, holen⟩

/-- Settles O50: the `DATA` tokens leave the transaction busy, and the `END` token ends it in every busy mode. -/
theorem transactionEndsWhenItsStreamEnds : Obligations.TransactionEndsWhenItsStreamEnds := by
  intro s x rest hr hm hoffers
  obtain ⟨t, hrun, ht, hop, htail⟩ :=
    run_dataOffers_of_busyMode (rest := endOffer :: rest) hm (by simp [endOffer, hr]) hoffers
  have hend : step t = .next (endOfInput { t with offers := rest }) :=
    (congrArg step (withOffers_eq_self htail).symm).trans (step_endOfInput_head_of_busyMode hr ht 0)
  exact ⟨_, (runSteps_succ_eq_step hrun).trans hend, rfl, hop, rfl⟩

end Sys2Proof.Machine
end

section
/-!
PROOFS. The two constant ROMs against their literals (20_memory.md, R31, R32).
-/

namespace Sys2Proof.Machine

/-! ### The literals as lists of characters -/

/-- The key ROM is the ASCII text of the key literal (R31). -/
theorem keyRom_text :
    keyRom.map (fun b => Char.ofNat b.toNat) = "odBearBecauseHeIsVeryGoodSiuHungIsAGo".toList := rfl

/-- The header ROM is the ASCII text of the header literal (R32). -/
theorem headerRom_text :
    headerRom.map (fun b => Char.ofNat b.toNat) =
      ("This is sample data as bytes. The first 123 bytes are ignored during decoding, " ++
        "the rest are decoded using a caesar cipher. ").toList := by
  rw [String.toList_append]
  decide

/-! ### The check sums -/

theorem keyRom_sum : (keyRom.map BitVec.toNat).sum = 3603 := by decide

theorem headerRom_sum : (headerRom.map BitVec.toNat).sum = 11055 := by simp [headerRom]

/-! ### The obligation -/

/-- Settles O1: the two texts, with the lengths, sums and sample bytes the rules list evaluated; inside 0..36 a key read
is the ROM's. -/
theorem romsAreTheLiterals : Obligations.RomsAreTheLiterals :=
  ⟨keyRom_text, keyRom_length, keyRom_sum, by decide, fun _ hk => keyAt_eq (Nat.le_of_lt_succ hk),
    headerRom_text, headerRom_length, rfl, headerRom_sum, rfl, rfl, rfl⟩

end Sys2Proof.Machine
end
